-- ==== Sys2Proof/Word.lean ====
section
/-! DEFINITION. The widths of the block's quantities (R5, R8 of `spec/00_scope.md`): all are unsigned and wrap. -/

namespace Sys2Proof

/-- The value of a 4-bit register: bit `i` is the content of cell `i`, of weight `2^i` (R16; log 9). -/
abbrev Nibble := BitVec 4

/-- A memory location, an opcode (R5: `BYTE`, `OPCODE_WIDTH`). -/
abbrev Byte := BitVec 8

/-- A memory address and the program counter's value (R5: `ADDR_WIDTH`, `PC_WIDTH`). -/
abbrev Addr := BitVec 16

end Sys2Proof
end

