-- ==== Sys2Proof/Syntax.lean ====
section
/-! DEFINITION. The instruction set `HR6` (R45): one constructor for each row of `spec/opcode_table.json`. -/

namespace Sys2Proof

/-- The six named opcodes. None has an operand (R44): A, B, R and the memory are implicit. A byte that names none of
them is an unknown opcode (R46): the decoder says so by name, and the ALU gives it the effect of R83 (log 21). -/
inductive Instr where
  /-- 0x00, R74: R is offered `A & B`. -/
  | and
  /-- 0x01, R75: R is offered `A | B`. -/
  | or
  /-- 0x02, R76: R is offered `A ^ B`. -/
  | xor
  /-- 0x03, R77: R is offered `(A + B) mod 16`. -/
  | add
  /-- 0x04, R81: A is offered the low half of the byte at the address in B. -/
  | load
  /-- 0x05, R82: the byte at the address in B becomes A, on a rising edge at R. -/
  | store
  deriving DecidableEq, Repr

end Sys2Proof
end

