-- ==== Sys2Proof/Decode.lean ====
section
/-! DEFINITION. The opcode map (R45), its inverse, and the total decoder: every byte is one of the six opcodes or is
rejected by name as an unknown opcode (R46, R47). -/

namespace Sys2Proof

/-- The opcode constants of R45 (log 8). -/
def opAnd : Byte := 0x00#8
def opOr : Byte := 0x01#8
def opXor : Byte := 0x02#8
def opAdd : Byte := 0x03#8
def opLoad : Byte := 0x04#8
def opStore : Byte := 0x05#8

/-- Why a byte is no instruction of the table. -/
inductive DecodeError where
  /-- R46: the byte lies outside the enumeration; the ALU runs it as R83 says. -/
  | unknownOpcode (op : Byte)
  deriving DecidableEq, Repr

/-- The match is on all 8 bits (R45: mask 0xFF). -/
def decode (op : Byte) : Except DecodeError Instr :=
  if op = opAnd then .ok .and
  else if op = opOr then .ok .or
  else if op = opXor then .ok .xor
  else if op = opAdd then .ok .add
  else if op = opLoad then .ok .load
  else if op = opStore then .ok .store
  else .error (.unknownOpcode op)

/-- The one byte of an instruction (R43, R45). -/
def encode : Instr → Byte
  | .and => opAnd
  | .or => opOr
  | .xor => opXor
  | .add => opAdd
  | .load => opLoad
  | .store => opStore

/-- The byte that `nbits` bits numbered as the opcode table numbers them stand for; `none` where they are not one
byte (R43: every instruction is exactly one byte). -/
def tableByte (nbits w : Nat) : Option Byte :=
  if nbits = 8 ∧ w < 256 then some (BitVec.ofNat 8 w) else none

/-- The instruction the decoder reads from a row's bits. -/
def decodeTableWord (nbits w : Nat) : Option Instr :=
  match tableByte nbits w with
  | none => none
  | some op =>
    match decode op with
    | .ok i => some i
    | .error _ => none

end Sys2Proof
end

