-- ==== Sys2Proof/Machine/Gates.lean ====
section
/-! DEFINITION. The gate layer (R51 to R54, R57): stateless functions of their inputs. -/

namespace Sys2Proof.Machine

/-- The one-bit gates (R51; truth tables PRESUMED, log 18). -/
def gateAnd : Bool → Bool → Bool
  | true, true => true
  | true, false => false
  | false, true => false
  | false, false => false

def gateOr : Bool → Bool → Bool
  | true, true => true
  | true, false => true
  | false, true => true
  | false, false => false

def gateXor : Bool → Bool → Bool
  | true, true => false
  | true, false => true
  | false, true => true
  | false, false => false

def gateNot : Bool → Bool
  | true => false
  | false => true

def gateNand (a b : Bool) : Bool := gateNot (gateAnd a b)

/-- R52: (sum, carry). -/
def halfAdder (a b : Bool) : Bool × Bool := (gateXor a b, gateAnd a b)

/-- R53: (sum, carry out). -/
def fullAdder (a b cin : Bool) : Bool × Bool :=
  (gateXor (gateXor a b) cin, gateOr (gateAnd a b) (gateAnd (gateXor a b) cin))

/-- Four bits, the least significant first, as a value (R16; log 9). -/
def nibbleOfBits (b0 b1 b2 b3 : Bool) : Nibble :=
  BitVec.ofBool b3 ++ BitVec.ofBool b2 ++ BitVec.ofBool b1 ++ BitVec.ofBool b0

/-- R54: (sum, carry), the carry running from bit 0 to bit 3; carry into bit 0 is 0 (log 19). The carry is seen here
only: no opcode keeps it (R21). -/
def add4 (a b : Nibble) : Nibble × Bool :=
  let s0 := fullAdder (a.getLsbD 0) (b.getLsbD 0) false
  let s1 := fullAdder (a.getLsbD 1) (b.getLsbD 1) s0.2
  let s2 := fullAdder (a.getLsbD 2) (b.getLsbD 2) s1.2
  let s3 := fullAdder (a.getLsbD 3) (b.getLsbD 3) s2.2
  (nibbleOfBits s0.1 s1.1 s2.1 s3.1, s3.2)

/-- A one-bit gate at each of the four positions, independently (R57). -/
def bitwise4 (gate : Bool → Bool → Bool) (a b : Nibble) : Nibble :=
  nibbleOfBits (gate (a.getLsbD 0) (b.getLsbD 0)) (gate (a.getLsbD 1) (b.getLsbD 1))
    (gate (a.getLsbD 2) (b.getLsbD 2)) (gate (a.getLsbD 3) (b.getLsbD 3))

/-- R57. -/
def and4 (a b : Nibble) : Nibble := bitwise4 gateAnd a b

/-- R57. -/
def or4 (a b : Nibble) : Nibble := bitwise4 gateOr a b

/-- R57. -/
def xor4 (a b : Nibble) : Nibble := bitwise4 gateXor a b

end Sys2Proof.Machine
end

