-- ==== Sys2Proof/Config.lean ====
section
/-! DEFINITION. The parameters of the block (R5): what a construction of it fixes. -/

namespace Sys2Proof

/-- The number of 16-bit addresses: the largest `MEM_SIZE` (R28; decision D4 of the spec). -/
def Config.addressCount : Nat := 65536

/-- The OPEN parameters of R5: the driver chooses them when it constructs the block.
`memInit` lists the locations whose initial byte is given, by rising address; a location it does not list starts
as 0 (R25; log 6). -/
structure Params where
  memSize : Nat
  memInit : List Host.Cell
  deriving DecidableEq, Repr

/-- The construction `State.reset` stands for: DESIGN CHOICE, the largest capacity (log 5), with the spec's default
image of zeros (D5; log 6). -/
def Config.defaultParams : Params := { memSize := Config.addressCount, memInit := [] }

end Sys2Proof
end

