-- ==== Sys2Proof/Machine/State.lean ====
section
/-! DEFINITION. The state of the block (R10: the inventory is closed) and of the driver that operates it, as plain
data; why a step can stop; the state after reset (R25). -/

namespace Sys2Proof.Machine

/-- A bit cell (R11): `q` is the stored data bit, `pclk` the clock value of the cell's most recent sample event. -/
structure BitCell where
  q    : Bool
  pclk : Bool
  deriving DecidableEq, Repr

/-- A register of width `n` (R13): `n` bit cells and nothing else; cell `i` has weight `2^i` (R16; log 9). -/
structure Reg (n : Nat) where
  cells : Vector BitCell n
  deriving DecidableEq, Repr

/-- The program counter (R18): one 16-bit value with one previous-clock bit (C6 of `spec/90_conflicts.md`). -/
structure ProgramCounter where
  value : Addr
  pclk  : Bool
  deriving DecidableEq, Repr

/-- The memory (R20, R27): `size` locations, fixed at construction (log 5). `cells` lists, by rising address, the
locations whose byte is not 0; a location it does not list holds 0 (log 6). -/
structure Memory where
  size  : Nat
  cells : List Host.Cell
  deriving DecidableEq, Repr

/-- What a read returns to the driver (R29, R67, R68, R78). The model's own (log 4). -/
inductive Reply where
  /-- `PcGet`. -/
  | address (a : Addr)
  /-- `MemRead`, `PcRead`. -/
  | byte (v : Byte)
  /-- `AluGetResult`, `AluGetRegA`, `AluGetRegB`. -/
  | nibble (d : Nibble)
  deriving DecidableEq, Repr

/-- An operation the driver invokes (R8, "Operation names"; R9). -/
inductive DriverOp where
  /-- R29. -/
  | memRead (a : Addr)
  /-- R30. -/
  | memWrite (a : Addr) (v : Byte)
  /-- R65. -/
  | pcUpdate (clk : Bool)
  /-- R66. -/
  | pcSet (a : Addr)
  /-- R67. -/
  | pcGet
  /-- R68. -/
  | pcRead
  /-- R71. -/
  | aluLoadA (d : Nibble) (clk : Bool)
  /-- R72. -/
  | aluLoadB (d : Nibble) (clk : Bool)
  /-- R73: any byte, whether fetched or not (R48). -/
  | aluExecute (op : Byte) (clk : Bool)
  /-- R78. -/
  | aluGetResult
  /-- R78. -/
  | aluGetRegA
  /-- R78. -/
  | aluGetRegB
  /-- R86. -/
  | tick (clk : Bool)
  /-- R88: `none` is "no request". -/
  | lockstepTick (clk : Bool) (reqA reqB : Option Nibble)
  deriving DecidableEq, Repr

/-- The state. `a`, `b`, `r`, `pc` and `mem` are the block's (R10); `execClk`, `script` and `reply` are the model's
own and stand for the driver's side of the boundary (log 1, 3, 4). The width of the ALU's registers is `N = 4` (R5). -/
structure State where
  /-- Operand register A, `reg_a` (R14). -/
  a       : Reg 4
  /-- Operand register B, `reg_b` (R14). -/
  b       : Reg 4
  /-- Result register R, `result_reg` (R14). -/
  r       : Reg 4
  /-- The program counter (R18). -/
  pc      : ProgramCounter
  /-- The one shared memory (R20). -/
  mem     : Memory
  /-- The clock operand of the `AluExecute` in progress: an input of the ALU, not history (R24; log 3). -/
  execClk : Bool
  /-- What the driver has still to invoke, in order (R9; log 1). -/
  script  : List DriverOp
  /-- What the last operation returned, if it was a read (log 4). -/
  reply   : Option Reply
  deriving DecidableEq, Repr

/-- No operation traps, faults or aborts, in any state and for any input (R93): there is no fault to name.
Nobody raises one; safe (log 22). -/
inductive Fault where
  deriving DecidableEq, Repr

/-- Why a step has no meaning. -/
inductive Refusal where
  /-- Raised by an arm of `exec` whose instruction has no meaning yet; none is left, so nobody raises it. Safe. -/
  | notModelled (mnemonic : String)
  deriving DecidableEq, Repr

/-- A cell as created: `state = false` (R25) and `prev_clock = false` (R25, decision D3; log 7). -/
def BitCell.fresh : BitCell := { q := false, pclk := false }

/-- A register as created: every cell fresh. -/
def Reg.fresh (n : Nat) : Reg n := { cells := Vector.replicate n BitCell.fresh }

/-- A memory as constructed: the image's bytes, in canonical form (R25; log 6). -/
def Memory.fresh (p : Params) : Memory :=
  { size := p.memSize, cells := p.memInit.filter fun c => c.2 != 0#8 }

/-- Reset is construction of the parts (R25, R105), with the driver about to invoke nothing. -/
def State.construct (p : Params) : State :=
  { a := Reg.fresh _, b := Reg.fresh _, r := Reg.fresh _
    pc := { value := 0#16, pclk := false }
    mem := Memory.fresh p
    execClk := false, script := [], reply := none }

/-- The machine right after reset, with the parameters' defaults (log 5, 6). -/
def State.reset : State := State.construct Config.defaultParams

end Sys2Proof.Machine
end

