-- ==== Sys2Proof/Machine/Flags.lean ====
section
/-! DEFINITION. The one-bit conditions the operations test. The block has no flags, condition codes or status bits
(R21, R22); what decides an effect is the edge each part detects for itself (R7) and the bound of the memory (R28). -/

namespace Sys2Proof.Machine

/-- A rising edge at a part: the clock input is 1 and the part's stored previous clock is 0 (R7). -/
def risingEdge (pclk clk : Bool) : Bool := clk && !pclk

/-- The previous clock `X.pclk` of a register, that of its cell 0 (R8; all cells agree in every reachable state, R17;
log 25). -/
def Reg.pclk {n : Nat} [NeZero n] (x : Reg n) : Bool := (x.cells[0]'(Nat.pos_of_neZero n)).pclk

/-- A part is armed when its previous clock is 0 (R108). -/
def Reg.armed {n : Nat} [NeZero n] (x : Reg n) : Bool := !x.pclk

/-- A rising edge as register `x` sees it. -/
def regRising {n : Nat} [NeZero n] (x : Reg n) (clk : Bool) : Bool := risingEdge x.pclk clk

/-- Address `a` is in range (R28). -/
def inRange (m : Memory) (a : Addr) : Bool := decide (a.toNat < m.size)

end Sys2Proof.Machine
end

