-- ==== Sys2Proof/WellFormed.lean ====
section
/-! DEFINITION. What a construction of the block must satisfy (R5, R28), and the instructions' check, which refuses
nothing because no instruction has a field (R43, R44). -/

namespace Sys2Proof

/-- Every instruction is well formed: the format `OP8` has no operand, register or immediate field (R44). -/
def Instr.wf : Instr → Bool
  | .and => true
  | .or => true
  | .xor => true
  | .add => true
  | .load => true
  | .store => true

/-- The addresses of a list of cells rise strictly and lie in `[lo, hi)`. -/
def cellsRising : Nat → Nat → List Host.Cell → Bool
  | _, _, [] => true
  | lo, hi, (k, _) :: t => decide (lo ≤ k) && decide (k < hi) && cellsRising (k + 1) hi t

/-- The capacity is at most 65536 (R28) and the image lists each of its locations once, in range. -/
def Params.wf (p : Params) : Bool :=
  decide (p.memSize ≤ Config.addressCount) && cellsRising 0 p.memSize p.memInit

end Sys2Proof
end

