-- ==== Sys2Proof/Machine/Ops.lean ====
section
/-! DEFINITION. The primitive operations on the parts: bit cell, register, memory, program counter, the operand loads
and reads of the ALU, and the latch of its result. Every one is total. Taking an exception and returning from one do
not exist on this hardware (R93, R100, R101): there is no such operation here. -/

namespace Sys2Proof.Machine

/-! ### The bit cell -/

/-- `CellUpdate(c, d, clk)` (R58): the test reads the previous clock from before the operation. -/
def cellUpdate (c : BitCell) (d clk : Bool) : BitCell :=
  { q := if risingEdge c.pclk clk then d else c.q, pclk := clk }

/-- `CellOutput(c)` (R59). -/
def cellOutput (c : BitCell) : Bool := c.q

/-! ### The register -/

/-- `RegLoad(X, d, clk)` (R61): every cell at once, each with its own bit of `d` and the same clock. -/
def regLoad {n : Nat} (x : Reg n) (d : BitVec n) (clk : Bool) : Reg n :=
  { cells := Vector.ofFn fun i => cellUpdate x.cells[i] (d.getLsbD i) clk }

/-- `RegOutput(X)` (R62): bit `i` is the output of cell `i`. -/
def regOutput {n : Nat} (x : Reg n) : BitVec n := BitVec.ofFnLE fun i => cellOutput x.cells[i]

/-! ### The memory -/

/-- The byte listed for address `k`, or 0 (log 6). The list rises, so a larger key ends the search. -/
def listed : List Host.Cell → Nat → Byte
  | [], _ => 0#8
  | (j, v) :: t, k => if k < j then 0#8 else if k = j then v else listed t k

/-- Put byte `v` at the head of a list, unless it is what an unlisted address reads as. -/
def consCell (k : Nat) (v : Byte) (t : List Host.Cell) : List Host.Cell :=
  if v = 0#8 then t else (k, v) :: t

/-- The list with byte `v` at address `k`, in canonical form. -/
def relist : List Host.Cell → Nat → Byte → List Host.Cell
  | [], k, v => consCell k v []
  | (j, w) :: t, k, v =>
    if k < j then consCell k v ((j, w) :: t)
    else if k = j then consCell k v t
    else (j, w) :: relist t k v

/-- The canonical form of a memory: capacity in range (R28), addresses strictly rising and below the capacity, no
listed byte equal to what an unlisted address reads as. -/
def Memory.wf (m : Memory) : Bool :=
  decide (m.size ≤ Config.addressCount) && cellsRising 0 m.size m.cells
    && m.cells.all fun c => c.2 != 0#8

/-- `MemRead(a, 1)` (R29): 0 out of range. -/
def memRead (m : Memory) (a : Addr) : Byte :=
  if inRange m a then listed m.cells a.toNat else 0#8

/-- `MemWrite(a, 1, v)` (R30): nothing out of range. -/
def memWrite (m : Memory) (a : Addr) (v : Byte) : Memory :=
  if inRange m a then { m with cells := relist m.cells a.toNat v } else m

/-! ### The program counter -/

/-- `PcUpdate(clk)` (R65). -/
def pcUpdate (p : ProgramCounter) (clk : Bool) : ProgramCounter :=
  { value := if risingEdge p.pclk clk then p.value + 1#16 else p.value, pclk := clk }

/-- `PcSet(a)` (R66): the previous clock stays (log 17). -/
def pcSet (p : ProgramCounter) (a : Addr) : ProgramCounter := { p with value := a }

/-- `PcGet()` (R67). -/
def pcGet (p : ProgramCounter) : Addr := p.value

/-- `PcRead()` (R68): an ordinary read of the shared memory. -/
def pcRead (p : ProgramCounter) (m : Memory) : Byte := memRead m p.value

/-! ### The state's fields, one update each -/

def State.setA (s : State) (x : Reg 4) : State := { s with a := x }
def State.setB (s : State) (x : Reg 4) : State := { s with b := x }
def State.setR (s : State) (x : Reg 4) : State := { s with r := x }
def State.setPc (s : State) (p : ProgramCounter) : State := { s with pc := p }
def State.setMem (s : State) (m : Memory) : State := { s with mem := m }
def State.setExecClk (s : State) (clk : Bool) : State := { s with execClk := clk }
def State.setScript (s : State) (l : List DriverOp) : State := { s with script := l }
def State.setReply (s : State) (v : Option Reply) : State := { s with reply := v }

/-! ### The ALU's operand loads and reads, and its result latch -/

/-- `AluLoadA(d, clk)` (R71). -/
def aluLoadA (d : Nibble) (clk : Bool) (s : State) : State := s.setA (regLoad s.a d clk)

/-- `AluLoadB(d, clk)` (R72): the only way B is written. -/
def aluLoadB (d : Nibble) (clk : Bool) (s : State) : State := s.setB (regLoad s.b d clk)

/-- `AluGetRegA()` (R78). -/
def aluGetRegA (s : State) : Nibble := regOutput s.a

/-- `AluGetRegB()` (R78). -/
def aluGetRegB (s : State) : Nibble := regOutput s.b

/-- `AluGetResult()` (R78). -/
def aluGetResult (s : State) : Nibble := regOutput s.r

/-- Step 3 of `AluExecute`, for every opcode (R73): R is loaded with `d` under the execution's clock. -/
def latchResult (d : Nibble) (s : State) : State := s.setR (regLoad s.r d s.execClk)

/-- Step 3 with R's own output as data: R keeps its value and sees the clock (R81, R82, R83; log 10, 11). -/
def holdResult (s : State) : State := latchResult (aluGetResult s) s

end Sys2Proof.Machine
end

