-- ==== Sys2Proof/Machine/Operands.lean ====
section
/-! DEFINITION. The operands, the same for every opcode (R44), and the conversions at the boundary of four bits
(R55, R56, R84). -/

namespace Sys2Proof.Machine

/-- `to_bits(v)` (R55): the low 4 bits; the others are dropped (R96; log 15). -/
def toBits (v : Byte) : Nibble := v.setWidth 4

/-- `from_bits(b)` (R56): the same number in 8 bits, which is `zext_8`. -/
def fromBits (d : Nibble) : Byte := d.setWidth 8

/-- `zext_16` of R8. -/
def zext16 (v : Byte) : Addr := v.setWidth 16

/-- The left operand, register A (R73, step 1). -/
def leftOperand (s : State) : Nibble := aluGetRegA s

/-- The right operand, register B (R73, step 1). -/
def rightOperand (s : State) : Nibble := aluGetRegB s

/-- The effective address of LOAD and STORE (R84): B as 8 bits, then as 16, both zero extended (log 19). -/
def effectiveAddress (s : State) : Addr := zext16 (fromBits (aluGetRegB s))

/-- The byte STORE writes (R82): A with four zero bits above it (log 19). -/
def storeData (s : State) : Byte := fromBits (aluGetRegA s)

end Sys2Proof.Machine
end

