-- ==== Sys2Proof/Machine/Compute.lean ====
section
/-! DEFINITION. The four computing opcodes (R74 to R77): a function of the operands as they are now, then the latch
of R. Nothing else is touched. -/

namespace Sys2Proof.Machine

/-- AND (R74). -/
def execAnd (s : State) : Host.Outcome State Fault Refusal :=
  .next (latchResult (and4 (leftOperand s) (rightOperand s)) s)

/-- OR (R75). -/
def execOr (s : State) : Host.Outcome State Fault Refusal :=
  .next (latchResult (or4 (leftOperand s) (rightOperand s)) s)

/-- XOR (R76). -/
def execXor (s : State) : Host.Outcome State Fault Refusal :=
  .next (latchResult (xor4 (leftOperand s) (rightOperand s)) s)

/-- ADD (R77): the carry is discarded. -/
def execAdd (s : State) : Host.Outcome State Fault Refusal :=
  .next (latchResult (add4 (leftOperand s) (rightOperand s)).1 s)

end Sys2Proof.Machine
end

