-- ==== Sys2Proof/Machine/Transfer.lean ====
section
/-! DEFINITION. The two memory opcodes (R81, R82) and the unknown opcode (R83). -/

namespace Sys2Proof.Machine

/-- LOAD (R81): A is offered the low half of the byte at the effective address, by its normal load path, so that A's
own cells detect the edge; then R holds. -/
def execLoad (s : State) : Host.Outcome State Fault Refusal :=
  let v := memRead s.mem (effectiveAddress s)
  .next (holdResult (aluLoadA (toBits v) s.execClk s))

/-- The memory action of STORE (R82, step 2): the write happens on a rising edge as R sees it, tested before R is
loaded (log 12). -/
def storeAction (s : State) : State :=
  if regRising s.r s.execClk then s.setMem (memWrite s.mem (effectiveAddress s) (storeData s)) else s

/-- STORE (R82): the memory action, then R holds. -/
def execStore (s : State) : Host.Outcome State Fault Refusal :=
  .next (holdResult (storeAction s))

/-- A byte outside the enumeration (R83): no computation, no memory access; R is sampled and holds (log 10). -/
def execUnknown (s : State) : Host.Outcome State Fault Refusal :=
  .next (holdResult s)

end Sys2Proof.Machine
end

