-- ==== Sys2Proof/Machine/Sequencer.lean ====
section
/-! DEFINITION. `AluExecute` on any byte, the two tick sequences (R86, R88), every operation of the driver (R8), and
how an instruction is placed for the next tick to fetch. -/

namespace Sys2Proof.Machine

/-- Go on with `f` where an operation answers a next state. -/
def andThen (o : Host.Outcome State Fault Refusal) (f : State → Host.Outcome State Fault Refusal) :
    Host.Outcome State Fault Refusal :=
  match o with
  | .next t => f t
  | .fault e => .fault e
  | .refused e => .refused e

/-- `AluExecute(op, clk)` (R73): total on the 256 bytes (R47). -/
def aluExecute (op : Byte) (clk : Bool) (s : State) : Host.Outcome State Fault Refusal :=
  match decode op with
  | .ok i => exec i (s.setExecClk clk)
  | .error (.unknownOpcode _) => execUnknown (s.setExecClk clk)

/-- The state a tick executes in: the program counter has seen the tick's clock (R86, first line). -/
def clockPc (clk : Bool) (s : State) : State := s.setPc (pcUpdate s.pc clk)

/-- The byte fetched in a state (R86, second line). -/
def fetch (s : State) : Byte := pcRead s.pc s.mem

/-- `Tick(clk)` (R86): update, fetch, execute, all with one clock (log 13). -/
def tick (clk : Bool) (s : State) : Host.Outcome State Fault Refusal :=
  aluExecute (fetch (clockPc clk s)) clk (clockPc clk s)

/-- The operand loads at the end of a lock-step tick (R88): a register with no request holds. -/
def lockstepLoads (clk : Bool) (reqA reqB : Option Nibble) (s : State) : State :=
  let sA := aluLoadA (reqA.getD (aluGetRegA s)) clk s
  aluLoadB (reqB.getD (aluGetRegB sA)) clk sA

/-- `LockstepTick(clk, reqA, reqB)` (R88; log 14). -/
def lockstepTick (clk : Bool) (reqA reqB : Option Nibble) (s : State) : Host.Outcome State Fault Refusal :=
  andThen (tick clk s) fun t => .next (lockstepLoads clk reqA reqB t)

/-- One operation of the driver, with its operands. A read changes nothing but what the driver holds as its reply. -/
def invoke (op : DriverOp) (s : State) : Host.Outcome State Fault Refusal :=
  match op with
  | .memRead a => .next (s.setReply (some (.byte (memRead s.mem a))))
  | .memWrite a v => .next (s.setMem (memWrite s.mem a v))
  | .pcUpdate clk => .next (s.setPc (pcUpdate s.pc clk))
  | .pcSet a => .next (s.setPc (pcSet s.pc a))
  | .pcGet => .next (s.setReply (some (.address (pcGet s.pc))))
  | .pcRead => .next (s.setReply (some (.byte (pcRead s.pc s.mem))))
  | .aluLoadA d clk => .next (aluLoadA d clk s)
  | .aluLoadB d clk => .next (aluLoadB d clk s)
  | .aluExecute op clk => aluExecute op clk s
  | .aluGetResult => .next (s.setReply (some (.nibble (aluGetResult s))))
  | .aluGetRegA => .next (s.setReply (some (.nibble (aluGetRegA s))))
  | .aluGetRegB => .next (s.setReply (some (.nibble (aluGetRegB s))))
  | .tick clk => tick clk s
  | .lockstepTick clk reqA reqB => lockstepTick clk reqA reqB s

/-- The driver takes the next operation off its list and has no reply yet (log 1, 4). -/
def beginOp (rest : List DriverOp) (s : State) : State := (s.setScript rest).setReply none

/-- The memory with byte `v` at address `a`, constructed large enough to have it (log 20). -/
def placeByte (m : Memory) (a : Addr) (v : Byte) : Memory :=
  memWrite { m with size := max m.size (a.toNat + 1) } a v

/-- Place byte `v` where a tick with clock 1 will fetch, and let that tick be the driver's next operation (log 20). -/
def placeInstruction (v : Byte) (s : State) : State :=
  (s.setMem (placeByte s.mem (pcUpdate s.pc true).value v)).setScript (.tick true :: s.script)

end Sys2Proof.Machine
end

