-- ==== Sys2Proof/Machine/Step.lean ====
section
/-! DEFINITION. One step: the driver invokes the next operation of its list (R6, R9). -/

namespace Sys2Proof.Machine

/-- One step. With nothing left to invoke the block, which never starts an operation itself, keeps its state
(R9, R98; log 2). -/
def step (s : State) : Host.Outcome State Fault Refusal :=
  match s.script with
  | [] => .next s
  | op :: rest => invoke op (beginOp rest s)

/-- `s` with the instruction whose bits are `w` placed so that the next step fetches and runs it (log 20). -/
def State.withFetchWord (s : State) (nbits w : Nat) : State :=
  placeInstruction (BitVec.ofNat 8 (w % 2 ^ nbits)) s

end Sys2Proof.Machine
end

