-- ==== Sys2Proof/Safety.lean ====
section
/-! DEFINITION. The terms in which claims speak of the machine: what a register load leaves, the invariant of every
reachable state (R17 and the memory's canonical form), the lock-step condition (R89), and what an operation keeps.
No run is unsafe: the block has no error state (R93). -/

namespace Sys2Proof.Machine

/-- Every cell of the register saw the clock value `c` last. -/
abbrev Reg.Sampled {n : Nat} (x : Reg n) (c : Bool) : Prop := ∀ i : Fin n, x.cells[i].pclk = c

/-- R17: all cells of the register hold the same previous clock. -/
abbrev Reg.Coherent {n : Nat} [NeZero n] (x : Reg n) : Prop := x.Sampled x.pclk

/-- The second form of R61: `x'` is `x` after it was offered `d` with the clock `clk`. -/
abbrev Loaded {n : Nat} [NeZero n] (x x' : Reg n) (d : BitVec n) (clk : Bool) : Prop :=
  regOutput x' = (if clk = true ∧ x.pclk = false then d else regOutput x) ∧ x'.Sampled clk

/-- The invariant of every reachable state. -/
abbrev Inv (s : State) : Prop :=
  s.a.Coherent ∧ s.b.Coherent ∧ s.r.Coherent ∧ s.mem.wf = true

/-- Every clocked part saw the clock value `c` last (R89). -/
abbrev LockedAt (s : State) (c : Bool) : Prop :=
  s.pc.pclk = c ∧ s.a.Sampled c ∧ s.b.Sampled c ∧ s.r.Sampled c

/-- Every address reads the same, and the capacity is the same. -/
def SameMemory (s t : State) : Prop :=
  t.mem.size = s.mem.size ∧ ∀ x : Addr, memRead t.mem x = memRead s.mem x

/-- The driver's side is the same. -/
abbrev SameDriver (s t : State) : Prop :=
  t.execClk = s.execClk ∧ t.script = s.script ∧ t.reply = s.reply

/-- The whole block (R10) is the same. -/
abbrev SameBlock (s t : State) : Prop :=
  t.a = s.a ∧ t.b = s.b ∧ t.r = s.r ∧ t.pc = s.pc ∧ t.mem = s.mem

/-- Nothing but R differs. -/
abbrev OnlyR (s t : State) : Prop :=
  t.a = s.a ∧ t.b = s.b ∧ t.pc = s.pc ∧ SameMemory s t ∧ SameDriver s t

/-- The operations a lock-step driver uses (R89): lock-step ticks, memory accesses, jumps, reads. -/
def keepsLockstep : DriverOp → Bool
  | .lockstepTick _ _ _ => true
  | .memRead _ => true
  | .memWrite _ _ => true
  | .pcSet _ => true
  | .pcGet => true
  | .pcRead => true
  | .aluGetResult => true
  | .aluGetRegA => true
  | .aluGetRegB => true
  | .pcUpdate _ => false
  | .aluLoadA _ _ => false
  | .aluLoadB _ _ => false
  | .aluExecute _ _ => false
  | .tick _ => false

/-- The clock of the last lock-step tick of a list of operations, or `c` where there is none. -/
def lastClock (c : Bool) : List DriverOp → Bool
  | [] => c
  | .lockstepTick clk _ _ :: rest => lastClock clk rest
  | _ :: rest => lastClock c rest

/-- The rising edges in a clock sequence, for a part whose previous clock is `prev` (R7). -/
def risingEdges (prev : Bool) : List Bool → Nat
  | [] => 0
  | clk :: rest => (if prev = false ∧ clk = true then 1 else 0) + risingEdges clk rest

/-- The last byte a list of writes gives address `a`, or `v` where it gives none (R37). -/
def latestWrite (v : Byte) (a : Addr) : List (Addr × Byte) → Byte
  | [] => v
  | (x, w) :: rest => latestWrite (if x = a then w else v) a rest

/-- The byte an image gives address `k`, or 0 (R25: `MEM_INIT`, default 0). -/
def imageByte (image : List Host.Cell) (k : Nat) : Byte :=
  match image.find? fun c => c.1 == k with
  | some c => c.2
  | none => 0#8

end Sys2Proof.Machine
end

