-- ==== Sys2Proof/Certificates/Slice0/Obligations.lean ====
section
/-! DEFINITION. The statements. Each docstring names the rule of `spec/` it formalises, and says where a clause rests
on a decision or inference the spec marks as its own, or on a choice of the model. -/

open Sys2Proof Sys2Proof.Machine

/-! ### The gate layer and the conversions -/

/-- R51: the five gates' truth tables (supplied to the spec from general knowledge, its G1; log 18). -/
def Obligations.GatesAreTheBooleanConnectives : Prop :=
  ∀ a b : Bool, gateAnd a b = (a && b) ∧ gateOr a b = (a || b) ∧ gateXor a b = xor a b ∧ gateNot a = (!a) ∧
    gateNand a b = !(a && b)

/-- R52. -/
def Obligations.HalfAdderIsXorAndAnd : Prop :=
  ∀ a b : Bool, halfAdder a b = (xor a b, a && b)

/-- R53: both formulas, and the equivalent sum. -/
def Obligations.FullAdderAddsThreeBits : Prop :=
  ∀ a b cin : Bool,
    fullAdder a b cin = (xor (xor a b) cin, (a && b) || (xor a b && cin)) ∧
    (fullAdder a b cin).1.toNat + 2 * (fullAdder a b cin).2.toNat = a.toNat + b.toNat + cin.toNat

/-- R54: the chain of full adders is addition modulo 16 with the carry of the exact sum. The carry-in 0 is the spec's
own derivation (D19). -/
def Obligations.RippleAdderIsAddition : Prop :=
  ∀ a b : Nibble,
    (add4 a b).1.toNat = (a.toNat + b.toNat) % 16 ∧ ((add4 a b).2 = true ↔ 16 ≤ a.toNat + b.toNat)

/-- R57: each gate at each position, with the rule's example. -/
def Obligations.BitwiseGatesActPerPosition : Prop :=
  (∀ (a b : Nibble) (i : Fin 4),
    (and4 a b)[i] = (a[i] && b[i]) ∧ (or4 a b)[i] = (a[i] || b[i]) ∧ (xor4 a b)[i] = xor a[i] b[i]) ∧
  and4 0b1010#4 0b0011#4 = 0b0010#4 ∧ or4 0b1010#4 0b0011#4 = 0b1011#4 ∧ xor4 0b1010#4 0b0011#4 = 0b1001#4

/-- R55, R56, R96: `to_bits` keeps the low 4 bits, `from_bits` is exact. The order of the elements is the spec's
decision D2. -/
def Obligations.ConversionsKeepLowFourBits : Prop :=
  (∀ v : Byte, (toBits v).toNat = v.toNat % 16 ∧ (fromBits (toBits v)).toNat = v.toNat % 16 ∧
    ∀ i : Nat, i < 4 → (toBits v).getLsbD i = v.getLsbD i) ∧
  (∀ d : Nibble, toBits (fromBits d) = d ∧
    (fromBits d).toNat = d[0].toNat + 2 * d[1].toNat + 4 * d[2].toNat + 8 * d[3].toNat)

/-! ### The bit cell and the register -/

/-- R58, with the invariant R12: the data bit changes to `d` on a rising edge at the cell and in no other case; the
clock is always recorded. -/
def Obligations.CellTakesDataOnRisingEdgeOnly : Prop :=
  ∀ (c : BitCell) (d clk : Bool),
    cellUpdate c d clk = if clk = true ∧ c.pclk = false then { q := d, pclk := clk } else { q := c.q, pclk := clk }

/-- R60 (b): after a sample event with clock 1, no number of further events with clock 1 changes the data bit; one
event with clock 0 re-arms the cell, whose next event with clock 1 then takes its data. -/
def Obligations.CellHeldHighKeepsDataUntilRearmed : Prop :=
  ∀ (c : BitCell) (first : Bool) (ds : List Bool) (low last : Bool),
    let held := ds.foldl (fun x d => cellUpdate x d true) (cellUpdate c first true)
    cellOutput held = cellOutput (cellUpdate c first true) ∧
    cellOutput (cellUpdate (cellUpdate held low false) last true) = last

/-- R61: every cell of a register of any width is updated with its own data bit and the one clock; on a register
whose cells agree this is the rule's second form, and they agree afterwards. -/
def Obligations.RegisterLoadIsParallelAndEdgeGated : Prop :=
  ∀ (n : Nat) [NeZero n] (x : Reg n) (d : BitVec n) (clk : Bool),
    (∀ i : Fin n, (regLoad x d clk).cells[i] = cellUpdate x.cells[i] d[i] clk) ∧
    (x.Coherent → Loaded x (regLoad x d clk) d clk ∧ (regLoad x d clk).Coherent ∧ (regLoad x d clk).pclk = clk)

/-- R62, R16: a register's output is its cells' data bits, cell `i` with weight `2^i` (the weight is the spec's
decision D2). -/
def Obligations.RegisterOutputIsItsCells : Prop :=
  (∀ (n : Nat) (x : Reg n) (i : Fin n), (regOutput x)[i] = cellOutput x.cells[i]) ∧
  (∀ x : Reg 4, (regOutput x).toNat =
    x.cells[0].q.toNat + 2 * x.cells[1].q.toNat + 4 * x.cells[2].q.toNat + 8 * x.cells[3].q.toNat)

/-! ### The memory -/

/-- R29: `MemRead` returns the byte stored at an address in range and 0 at any other, and changes nothing. -/
def Obligations.MemReadReturnsStoredByteOrZero : Prop :=
  ∀ (s : State) (a : Addr), s.mem.wf = true →
    ∃ t, invoke (.memRead a) s = .next t ∧
      t.reply = some (.byte (if a.toNat < s.mem.size then imageByte s.mem.cells a.toNat else 0#8)) ∧
      SameBlock s t ∧ t.execClk = s.execClk ∧ t.script = s.script

/-- R30: `MemWrite` stores the whole byte at an address in range and nothing elsewhere; out of range it changes
nothing; no clock has a part in it. -/
def Obligations.MemWriteStoresOneByteInRange : Prop :=
  ∀ (s : State) (a : Addr) (v : Byte), s.mem.wf = true →
    ∃ t, invoke (.memWrite a v) s = .next t ∧
      t.mem.size = s.mem.size ∧
      (a.toNat < s.mem.size → memRead t.mem a = v) ∧
      (∀ x : Addr, x ≠ a → memRead t.mem x = memRead s.mem x) ∧
      (s.mem.size ≤ a.toNat → t.mem = s.mem) ∧
      t.a = s.a ∧ t.b = s.b ∧ t.r = s.r ∧ t.pc = s.pc ∧ SameDriver s t

/-- R37 (b): after any list of writes, a read of an address in range returns the latest byte written there, or what
it held before where none was. -/
def Obligations.ReadReturnsLatestWrite : Prop :=
  ∀ (m : Memory) (ws : List (Addr × Byte)) (a : Addr), m.wf = true →
    memRead (ws.foldl (fun m w => memWrite m w.1 w.2) m) a =
      if a.toNat < m.size then latestWrite (memRead m a) a ws else 0#8

/-- The model's own canonical form (log 6) over R20, R27: two memories of one capacity that read the same at every
address are the same data. -/
def Obligations.MemoriesThatReadAlikeAreEqual : Prop :=
  ∀ m m' : Memory, m.wf = true → m'.wf = true → m.size = m'.size →
    (∀ a : Addr, memRead m a = memRead m' a) → m = m'

/-! ### The program counter -/

/-- R65: the counter moves by 1 modulo 65536 on a rising edge it sees and in no other case, records the clock always,
and touches nothing else. -/
def Obligations.PcUpdateCountsRisingEdge : Prop :=
  ∀ (s : State) (clk : Bool), ∃ t, invoke (.pcUpdate clk) s = .next t ∧
    t.pc.value.toNat =
      (if clk = true ∧ s.pc.pclk = false then (s.pc.value.toNat + 1) % 65536 else s.pc.value.toNat) ∧
    t.pc.pclk = clk ∧ t.a = s.a ∧ t.b = s.b ∧ t.r = s.r ∧ t.mem = s.mem ∧ SameDriver s t

/-- R66: `PcSet` overwrites the value whatever the clocks; that it leaves `pc.pclk` is the spec's decision D13. -/
def Obligations.PcSetOverwritesValueOnly : Prop :=
  ∀ (s : State) (a : Addr), ∃ t, invoke (.pcSet a) s = .next t ∧
    t.pc.value = a ∧ t.pc.pclk = s.pc.pclk ∧ t.a = s.a ∧ t.b = s.b ∧ t.r = s.r ∧ t.mem = s.mem ∧ SameDriver s t

/-- R67, R68: `PcGet` returns the value, `PcRead` the byte of the shared memory at it (0 out of range); neither
changes anything. -/
def Obligations.PcReadsArePure : Prop :=
  ∀ s : State,
    (∃ t, invoke .pcGet s = .next t ∧ t.reply = some (.address s.pc.value) ∧
      SameBlock s t ∧ t.execClk = s.execClk ∧ t.script = s.script) ∧
    (∃ t, invoke .pcRead s = .next t ∧ t.reply = some (.byte (memRead s.mem s.pc.value)) ∧
      (s.mem.size ≤ s.pc.value.toNat → t.reply = some (.byte 0#8)) ∧
      SameBlock s t ∧ t.execClk = s.execClk ∧ t.script = s.script)

/-- R103, last sentence: after any sequence of clocks the counter has advanced by the number of rising edges in it,
modulo 65536. -/
def Obligations.PcCountsRisingEdgesOfAnySequence : Prop :=
  ∀ (p : ProgramCounter) (clks : List Bool),
    (clks.foldl pcUpdate p).value.toNat = (p.value.toNat + risingEdges p.pclk clks) % 65536

/-- R69: the two operations take effect in the order invoked. -/
def Obligations.PcSetAndUpdateDoNotCommute : Prop :=
  ∀ (p : ProgramCounter) (a : Addr), p.pclk = false →
    (pcUpdate (pcSet p a) true).value = a + 1#16 ∧ (pcSet (pcUpdate p true) a).value = a

/-! ### The ALU: operand loads, reads, opcodes -/

/-- R71: A takes the data on a rising edge at A only, records the clock, and nothing else changes. -/
def Obligations.AluLoadALoadsOnlyA : Prop :=
  ∀ (s : State) (d : Nibble) (clk : Bool), s.a.Coherent →
    ∃ t, invoke (.aluLoadA d clk) s = .next t ∧ Loaded s.a t.a d clk ∧
      t.b = s.b ∧ t.r = s.r ∧ t.pc = s.pc ∧ SameMemory s t ∧ SameDriver s t

/-- R72: B likewise; and no opcode writes B. -/
def Obligations.AluLoadBLoadsOnlyB : Prop :=
  (∀ (s : State) (d : Nibble) (clk : Bool), s.b.Coherent →
    ∃ t, invoke (.aluLoadB d clk) s = .next t ∧ Loaded s.b t.b d clk ∧
      t.a = s.a ∧ t.r = s.r ∧ t.pc = s.pc ∧ SameMemory s t ∧ SameDriver s t) ∧
  (∀ (op : Byte) (clk : Bool) (s : State), ∃ t, aluExecute op clk s = .next t ∧ t.b = s.b)

/-- R78: the three pure reads return the outputs of R, A and B and change nothing. -/
def Obligations.AluReadsArePure : Prop :=
  ∀ s : State,
    (∃ t, invoke .aluGetResult s = .next t ∧ t.reply = some (.nibble (regOutput s.r)) ∧
      SameBlock s t ∧ t.execClk = s.execClk ∧ t.script = s.script) ∧
    (∃ t, invoke .aluGetRegA s = .next t ∧ t.reply = some (.nibble (regOutput s.a)) ∧
      SameBlock s t ∧ t.execClk = s.execClk ∧ t.script = s.script) ∧
    (∃ t, invoke .aluGetRegB s = .next t ∧ t.reply = some (.nibble (regOutput s.b)) ∧
      SameBlock s t ∧ t.execClk = s.execClk ∧ t.script = s.script)

/-- R74: AND completes; R takes `A & B` on a rising edge at R, records the clock; nothing else changes. -/
def Obligations.AndLatchesConjunction : Prop :=
  ∀ s : State, s.r.Coherent → ∃ t, exec .and s = .next t ∧
    Loaded s.r t.r (regOutput s.a &&& regOutput s.b) s.execClk ∧ OnlyR s t

/-- R75. -/
def Obligations.OrLatchesDisjunction : Prop :=
  ∀ s : State, s.r.Coherent → ∃ t, exec .or s = .next t ∧
    Loaded s.r t.r (regOutput s.a ||| regOutput s.b) s.execClk ∧ OnlyR s t

/-- R76. -/
def Obligations.XorLatchesExclusiveOr : Prop :=
  ∀ s : State, s.r.Coherent → ∃ t, exec .xor s = .next t ∧
    Loaded s.r t.r (regOutput s.a ^^^ regOutput s.b) s.execClk ∧ OnlyR s t

/-- R77: the value latched is the sum modulo 16, unsigned; read as signed it is the signed sum modulo 16. The signed
clause is an inference R77 marks as its own ("[derived: from the mod 16 form]"). -/
def Obligations.AddLatchesSumModulo16 : Prop :=
  ∀ s : State, s.r.Coherent → ∃ t d, exec .add s = .next t ∧
    d.toNat = ((regOutput s.a).toNat + (regOutput s.b).toNat) % 16 ∧
    d.toInt = ((regOutput s.a).toInt + (regOutput s.b).toInt).bmod 16 ∧
    Loaded s.r t.r d s.execClk ∧ OnlyR s t

/-- R81: LOAD completes; A takes the low half of the byte at the address in B on a rising edge at A (not at R), and
records the clock; B, the counter and memory are unchanged. That R keeps its value is the spec's decision D7 (log 11);
the zero extension of B is its decision D20 (log 19). -/
def Obligations.LoadFillsAFromMemory : Prop :=
  ∀ s : State, s.a.Coherent → s.r.Coherent → ∃ t, exec .load s = .next t ∧
    Loaded s.a t.a ((memRead s.mem ((regOutput s.b).setWidth 16)).setWidth 4) s.execClk ∧
    Loaded s.r t.r (regOutput s.r) s.execClk ∧
    t.b = s.b ∧ t.pc = s.pc ∧ SameMemory s t ∧ SameDriver s t

/-- R82: STORE completes; on a rising edge as R sees it (the spec's decision D8, log 12) the byte at the address in B
becomes A, if the address is in range, and no other address changes; without that edge, or out of range, none changes. R keeps its value
(decision D7, log 11; the zero extension is D20, log 19) and records the clock; A, B and the counter are unchanged. -/
def Obligations.StoreWritesAToMemory : Prop :=
  ∀ s : State, s.r.Coherent → s.mem.wf = true → ∃ t, exec .store s = .next t ∧
    (∀ ea : Addr, ea = effectiveAddress s →
      ea.toNat = (regOutput s.b).toNat ∧
      (s.execClk = true → s.r.pclk = false → ea.toNat < s.mem.size →
        (memRead t.mem ea).toNat = (regOutput s.a).toNat) ∧
      (∀ x : Addr, x ≠ ea → memRead t.mem x = memRead s.mem x)) ∧
    (s.execClk = false ∨ s.r.pclk = true ∨ s.mem.size ≤ (effectiveAddress s).toNat → t.mem = s.mem) ∧
    t.mem.size = s.mem.size ∧
    Loaded s.r t.r (regOutput s.r) s.execClk ∧
    t.a = s.a ∧ t.b = s.b ∧ t.pc = s.pc ∧ SameDriver s t

/-- R46, R83: an unknown opcode completes; R records the clock; everything else is unchanged. That R keeps its value
is the spec's decision D6 (log 10); that the unknown bytes are those from 0x06 up rests on its opcode numbers, decision
D1 (log 8). -/
def Obligations.UnknownOpcodeOnlySamplesR : Prop :=
  ∀ (s : State) (op : Byte) (clk : Bool), 6 ≤ op.toNat → s.r.Coherent →
    ∃ t, aluExecute op clk s = .next t ∧ Loaded s.r t.r (regOutput s.r) clk ∧
      t.a = s.a ∧ t.b = s.b ∧ t.pc = s.pc ∧ SameMemory s t ∧ t.script = s.script ∧ t.reply = s.reply

/-- R73, R90: no opcode writes the counter, and none reads it: two states that differ in the counter only give states
that differ in the counter only. -/
def Obligations.OpcodesNeitherReadNorWriteCounter : Prop :=
  ∀ (i : Instr) (s : State) (p : ProgramCounter), ∃ t,
    exec i s = .next t ∧ t.pc = s.pc ∧ exec i (s.setPc p) = .next (t.setPc p)

/-- R79 (a): an execution with the clock low changes no output and no byte, for any opcode; it arms R and, for LOAD
(0x04, decision D1, log 8), A. -/
def Obligations.LowClockExecutionIsInvisible : Prop :=
  ∀ (op : Byte) (s : State), ∃ t, aluExecute op false s = .next t ∧
    regOutput t.r = regOutput s.r ∧ regOutput t.a = regOutput s.a ∧ t.b = s.b ∧ t.pc = s.pc ∧ t.mem = s.mem ∧
    t.r.Sampled false ∧ (if op = 0x04#8 then t.a.Sampled false else t.a = s.a)

/-- R79 (b), (c): with the clock held high only the first of two executions can change R or memory. The clauses on
memory rest on STORE being gated by the edge R sees, the spec's decision D8 (log 12). -/
def Obligations.HeldHighOnlyFirstExecutionLatches : Prop :=
  ∀ (op op' : Byte) (s : State), s.r.Coherent → s.mem.wf = true → ∃ t u,
    aluExecute op true s = .next t ∧ aluExecute op' true t = .next u ∧
    regOutput u.r = regOutput t.r ∧ u.mem = t.mem ∧ u.r.Sampled true ∧
    (s.r.pclk = true → regOutput t.r = regOutput s.r ∧ t.mem = s.mem)

/-- R108: a sample event with the clock low arms the part, whatever the data or the opcode and whatever the part saw
before; the next one with the clock high then takes effect. The execution shown is ADD, 0x03 by the spec's decision D1
(log 8). -/
def Obligations.LowClockArmsEveryPart : Prop :=
  ∀ (s : State) (any d : Nibble) (op : Byte),
    (∃ t u, invoke (.aluLoadA any false) s = .next t ∧ t.a.armed = true ∧
      invoke (.aluLoadA d true) t = .next u ∧ regOutput u.a = d) ∧
    (∃ t u, invoke (.aluLoadB any false) s = .next t ∧ t.b.armed = true ∧
      invoke (.aluLoadB d true) t = .next u ∧ regOutput u.b = d) ∧
    (∃ t u, invoke (.aluExecute op false) s = .next t ∧ t.r.armed = true ∧
      invoke (.aluExecute 0x03#8 true) t = .next u ∧ regOutput u.r = regOutput s.a + regOutput s.b) ∧
    (∃ t u, invoke (.pcUpdate false) s = .next t ∧ t.pc.pclk = false ∧
      invoke (.pcUpdate true) t = .next u ∧ u.pc.value = s.pc.value + 1#16)

/-! ### Encoding -/

/-- R45 (the numbers are the spec's decision D1, log 8): three words written out from the opcode map, and the byte 0x06 as
the first unknown one. -/
def Obligations.OpcodeMapSamples : Prop :=
  decode 0b00000000#8 = .ok .and ∧ decode 0b00000011#8 = .ok .add ∧ decode 0b00000101#8 = .ok .store ∧
  decode 0b00000110#8 = .error (.unknownOpcode 0x06#8) ∧ decodeTableWord 8 0x04 = some .load

/-- R43, R45: decoding the byte of an instruction gives the instruction back, and a byte decodes to an instruction
only if it is that instruction's byte: no two opcodes share a byte. The numbers are the spec's decision D1 (log 8). -/
def Obligations.DecodeAndEncodeAgree : Prop :=
  (∀ i : Instr, decode (encode i) = .ok i ∧ decodeTableWord 8 (encode i).toNat = some i) ∧
  (∀ (op : Byte) (i : Instr), decode op = .ok i → encode i = op)

/-- R46, R47 (numbers: D1, log 8): exactly the bytes 0x06 to 0xFF are unknown opcodes, each rejected under its own value. -/
def Obligations.UnknownOpcodesAreSixAndAbove : Prop :=
  ∀ op : Byte, (6 ≤ op.toNat → decode op = .error (.unknownOpcode op)) ∧
    (op.toNat < 6 → ∃ i, decode op = .ok i)

/-! ### Steps and ticks -/

/-- R86 (the order is the spec's decision D9, log 13), R48: a tick whose fetched byte, at the updated counter, decodes
to `i`, and an `AluExecute` of a byte that decodes to `i`, are `exec i` in the state they set up. -/
def Obligations.StepRunsDecodedInstruction : Prop :=
  ∀ (s : State) (rest : List DriverOp) (clk : Bool) (i : Instr),
    (s.script = .tick clk :: rest → decode (memRead s.mem (pcUpdate s.pc clk).value) = .ok i →
      step s = exec i (((beginOp rest s).setPc (pcUpdate s.pc clk)).setExecClk clk)) ∧
    (∀ op : Byte, s.script = .aluExecute op clk :: rest → decode op = .ok i →
      step s = exec i ((beginOp rest s).setExecClk clk))

/-- The package's own loading of an instruction (log 20): the step after `withFetchWord` runs the instruction that the
word decodes to, with a clock of 1. Where the tick fetches is R86 under the spec's decision D9 (log 13), what the word
means its decision D1 (log 8). -/
def Obligations.PlacedInstructionRunsNext : Prop :=
  ∀ (s : State) (w : Nat) (i : Instr), s.mem.wf = true → decodeTableWord 8 w = some i →
    ∃ u, step (s.withFetchWord 8 w) = exec i u ∧ u.a = s.a ∧ u.b = s.b ∧ u.r = s.r ∧
      u.pc = pcUpdate s.pc true ∧ u.execClk = true ∧ u.script = s.script ∧
      ∀ x : Addr, x ≠ u.pc.value → memRead u.mem x = memRead s.mem x

/-- R93: every operation of the driver and every step answers a next state, in every state; there is no fault. -/
def Obligations.NoOperationStops : Prop :=
  (∀ (op : DriverOp) (s : State), ∃ t, invoke op s = .next t) ∧ (∀ s : State, ∃ t, step s = .next t) ∧
  IsEmpty Fault

/-- R9: a step takes the next operation off the driver's list and performs it; with an empty list the state stays
(log 1, 2). The list is never changed in another way, and the capacity of the memory never (R27). -/
def Obligations.StepConsumesOneOperation : Prop :=
  ∀ s : State, (s.script = [] → step s = .next s) ∧
    (∀ op rest, s.script = op :: rest → step s = invoke op { s with script := rest, reply := none }) ∧
    ∃ t, step s = .next t ∧ t.script = s.script.tail ∧ t.mem.size = s.mem.size

/-- R87, with R74 to R77, R81, R82: the whole meaning of a rising tick. The counter moves to the next address modulo
65536 and the byte there takes effect: on R, on A, on one byte of memory; B is unchanged. Rests on the spec's
decisions D1, D6 to D9 and D20 (log 8, 10 to 13, 19). -/
def Obligations.RisingTickMeaning : Prop :=
  ∀ (s : State) (rest : List DriverOp), Inv s → s.script = .tick true :: rest →
    s.pc.pclk = false → s.r.pclk = false →
    ∃ t, step s = .next t ∧
      t.pc.value.toNat = (s.pc.value.toNat + 1) % 65536 ∧ t.pc.pclk = true ∧ t.r.Sampled true ∧ t.b = s.b ∧
      regOutput t.r =
        (match decode (memRead s.mem (s.pc.value + 1#16)) with
        | .ok .and => regOutput s.a &&& regOutput s.b
        | .ok .or => regOutput s.a ||| regOutput s.b
        | .ok .xor => regOutput s.a ^^^ regOutput s.b
        | .ok .add => regOutput s.a + regOutput s.b
        | _ => regOutput s.r) ∧
      regOutput t.a =
        (if decode (memRead s.mem (s.pc.value + 1#16)) = .ok .load ∧ s.a.pclk = false
          then (memRead s.mem ((regOutput s.b).setWidth 16)).setWidth 4 else regOutput s.a) ∧
      (if decode (memRead s.mem (s.pc.value + 1#16)) = .ok .load then t.a.Sampled true else t.a = s.a) ∧
      ∀ x : Addr, memRead t.mem x =
        if decode (memRead s.mem (s.pc.value + 1#16)) = .ok .store ∧ x = (regOutput s.b).setWidth 16 ∧
          x.toNat < s.mem.size then (regOutput s.a).setWidth 8 else memRead s.mem x

/-- R87, R79 (a): a falling tick changes nothing visible; it arms the counter, R and, where the byte fetched is LOAD
(0x04, decision D1, log 8), A. The address fetched is R86 under the spec's decision D9 (log 13). -/
def Obligations.FallingTickOnlyArms : Prop :=
  ∀ (s : State) (rest : List DriverOp), s.script = .tick false :: rest →
    ∃ t, step s = .next t ∧ t.pc.value = s.pc.value ∧ t.pc.pclk = false ∧ t.r.Sampled false ∧
      regOutput t.r = regOutput s.r ∧ regOutput t.a = regOutput s.a ∧ t.b = s.b ∧ t.mem = s.mem ∧
      (if memRead s.mem s.pc.value = 0x04#8 then t.a.Sampled false else t.a = s.a)

/-- R42: a fetch at or beyond the capacity executes AND. That byte 0 is AND is the spec's decision D1 (log 8); that a
tick fetches at the updated counter is R86 under its decision D9 (log 13). -/
def Obligations.FetchBeyondMemoryExecutesAnd : Prop :=
  ∀ (s : State) (rest : List DriverOp) (clk : Bool), s.script = .tick clk :: rest →
    s.mem.size ≤ (pcUpdate s.pc clk).value.toNat →
    step s = exec .and (((beginOp rest s).setPc (pcUpdate s.pc clk)).setExecClk clk)

/-- R90: after `PcSet(t - 1)` an armed counter's next rising tick executes the byte at `t`, an instruction or an
unknown opcode (from 0x06 up: the spec's decision D1, log 8). That the target is `t` and not `t - 1` is its tick order,
decision D9 (log 13); that the counter is still armed after the set is its decision D13 (log 17). -/
def Obligations.JumpExecutesTargetNext : Prop :=
  ∀ (s : State) (rest : List DriverOp) (target : Addr),
    s.script = .pcSet (target - 1#16) :: .tick true :: rest → s.pc.pclk = false →
    ∃ t u, step s = .next t ∧
      (∀ i : Instr, decode (memRead s.mem target) = .ok i → step t = exec i u) ∧
      (6 ≤ (memRead s.mem target).toNat → step t = execUnknown u) ∧
      u.pc.value = target ∧ u.pc.pclk = true ∧
      u.a = s.a ∧ u.b = s.b ∧ u.r = s.r ∧ u.mem = s.mem ∧ u.execClk = true ∧ u.script = rest

/-- R110: under `Tick`, a LOAD executed in a rising tick while A is not armed is lost; the falling tick after it
arms A. That the tick takes the LOAD at the updated counter is R86 under the spec's decision D9 (log 13). -/
def Obligations.LoadIsLostWhenANotArmed : Prop :=
  ∀ (s : State) (rest : List DriverOp), s.script = .tick true :: .tick false :: rest →
    s.pc.pclk = false → s.a.Sampled true → decode (memRead s.mem (s.pc.value + 1#16)) = .ok .load →
    ∃ t u, step s = .next t ∧ regOutput t.a = regOutput s.a ∧
      step t = .next u ∧ regOutput u.a = regOutput s.a ∧ u.a.Sampled false

/-- R88 (the procedure is the spec's decision D10, log 14): in a lock-step tick whose clock rises for every part, R is
what the tick alone leaves, computed from the operands of before; B takes its request or holds; A takes the loaded
nibble if the opcode is LOAD, whatever the request, and its request or its value otherwise. The opcode at the next
address is R86 under decision D9 (log 13), the address in B is zero extended by D20 (log 19). -/
def Obligations.LockstepTickLoadsAfterExecute : Prop :=
  ∀ (s : State) (rest : List DriverOp) (reqA reqB : Option Nibble), LockedAt s false →
    s.script = .lockstepTick true reqA reqB :: rest →
    ∃ t u, tick true (beginOp rest s) = .next t ∧ step s = .next u ∧
      u.r = t.r ∧ u.pc = t.pc ∧ u.mem = t.mem ∧
      regOutput u.b = reqB.getD (regOutput s.b) ∧
      regOutput u.a =
        if decode (memRead s.mem (s.pc.value + 1#16)) = .ok .load
          then (memRead s.mem ((regOutput s.b).setWidth 16)).setWidth 4 else reqA.getD (regOutput s.a)

/-! ### Reset and invariants -/

/-- R25, R105: construction with any parameters that pass the check. The value of the cells' `pclk` is the spec's
decision D3 (log 7), the image is its parameter MEM_INIT (D5). `State.reset` is the construction with the default
image and, by the model's choice (log 5), the largest capacity. -/
def Obligations.ConstructionGivesResetValues : Prop :=
  State.reset = State.construct { memSize := 65536, memInit := [] } ∧
  ∀ p : Params, p.wf = true →
    (State.construct p).a.Sampled false ∧ (State.construct p).b.Sampled false ∧ (State.construct p).r.Sampled false ∧
    regOutput (State.construct p).a = 0#4 ∧ regOutput (State.construct p).b = 0#4 ∧
    regOutput (State.construct p).r = 0#4 ∧
    (State.construct p).pc = { value := 0#16, pclk := false } ∧ (State.construct p).mem.size = p.memSize ∧
    ∀ a : Addr, memRead (State.construct p).mem a =
      if a.toNat < p.memSize then imageByte p.memInit a.toNat else 0#8

/-- R17, R28 and the model's canonical memory (log 6) hold at reset, and after every other construction. -/
def Obligations.InvariantHoldsAtReset : Prop :=
  Inv State.reset ∧ ∀ p : Params, p.wf = true → Inv (State.construct p)

/-- R17: from every state in which the cells of each register agree and the memory is in canonical form, a step gives
such a state. -/
def Obligations.StepKeepsInvariant : Prop :=
  ∀ s : State, Inv s → ∃ t, step s = .next t ∧ Inv t

/-- R89: a lock-step tick leaves all the previous clocks equal to its clock; the other operations of a lock-step
driver leave them alone. The procedure of such a tick is the spec's decision D10 (log 14), that a jump leaves the
counter's previous clock its decision D13 (log 17). -/
def Obligations.LockstepOperationKeepsLock : Prop :=
  ∀ (s : State) (c : Bool) (op : DriverOp), LockedAt s c → keepsLockstep op = true →
    ∃ t, invoke op s = .next t ∧ LockedAt t (lastClock c [op])

/-- R89: a run of only lock-step ticks, memory accesses, jumps and reads, of any length, ends with every part's
previous clock equal to the clock of its last tick. Rests on the spec's decisions D10 and D13 (log 14, 17). -/
def Obligations.LockstepRunKeepsLock : Prop :=
  ∀ (ops : List DriverOp) (s : State) (c : Bool), s.script = ops → LockedAt s c →
    (∀ op ∈ ops, keepsLockstep op = true) →
    ∃ t, Host.Core.run Sys2Proof.core ops.length s = .next t ∧ t.script = [] ∧ LockedAt t (lastClock c ops)

/-! ### Whole-machine rules -/

/-- R32, R36 (d): a step whose operation is no direct write of the driver changes memory, if at all, at the one address
in B, which is below 16, and to a byte whose high half is zero. That B and A are widened with zeros is the spec's
decision D20 (log 19). The address is that of B before the step: in a lock-step tick this is R88, which loads B after
the execute, under its decision D10 (log 14). -/
def Obligations.ProgramsWriteOnlyLowNibblesBelow16 : Prop :=
  ∀ s : State, s.mem.wf = true → (∀ a v rest, s.script ≠ .memWrite a v :: rest) →
    ∃ t, step s = .next t ∧ (effectiveAddress s).toNat < 16 ∧
      (∀ x : Addr, x ≠ effectiveAddress s → memRead t.mem x = memRead s.mem x) ∧
      (memRead t.mem (effectiveAddress s) = memRead s.mem (effectiveAddress s) ∨
        (memRead t.mem (effectiveAddress s)).toNat < 16)

/-- R14: B changes only by `AluLoadB`, invoked as such or by a lock-step tick, and the counter's value only by
`PcUpdate`, by `PcSet` or in a tick. What a lock-step tick offers B is R88 under the spec's decision D10 (log 14); that
`PcSet` leaves the counter's previous clock is its decision D13 (log 17). -/
def Obligations.OnlyTheDriverWritesBAndCounter : Prop :=
  ∀ (op : DriverOp) (s : State), ∃ t, invoke op s = .next t ∧
    (match op with
    | .aluLoadB d clk => t.b = regLoad s.b d clk
    | .lockstepTick clk _ reqB => t.b = regLoad s.b (reqB.getD (regOutput s.b)) clk
    | _ => t.b = s.b) ∧
    (match op with
    | .pcUpdate clk => t.pc = pcUpdate s.pc clk
    | .tick clk => t.pc = pcUpdate s.pc clk
    | .lockstepTick clk _ _ => t.pc = pcUpdate s.pc clk
    | .pcSet a => t.pc = { s.pc with value := a }
    | _ => t.pc = s.pc)

/-- R10, R7: the model's own field `execClk` holds no history (log 3): what a step leaves in the block, in the list
and in the reply does not depend on it. -/
def Obligations.ExecuteClockIsNoHistory : Prop :=
  ∀ (s : State) (c : Bool), ∃ t t', step s = .next t ∧ step (s.setExecClk c) = .next t' ∧
    SameBlock t t' ∧ t'.script = t.script ∧ t'.reply = t.reply

/-- R23: two states equal in every visible value and different in A's previous clock behave differently: with any
data but A's own, the armed one takes it at clock 1 and the other does not. -/
def Obligations.HiddenPreviousClockDecides : Prop :=
  ∀ (s s' : State) (d : Nibble), regOutput s.a = regOutput s'.a → s.a.Sampled false → s'.a.Sampled true →
    d ≠ regOutput s.a →
    ∃ t t', invoke (.aluLoadA d true) s = .next t ∧ invoke (.aluLoadA d true) s' = .next t' ∧
      regOutput t.a = d ∧ regOutput t'.a = regOutput s.a ∧ regOutput t.a ≠ regOutput t'.a

/-- R40: a byte written by STORE to the address the counter holds is what the next fetch there reads. That a rising edge
at R lets the STORE write is R82 under the spec's decision D8 (log 12); the zero extension is its decision D20
(log 19). -/
def Obligations.StoredByteIsFetchedNext : Prop :=
  ∀ s : State, s.mem.wf = true → s.execClk = true → s.r.Sampled false →
    s.pc.value.toNat = (regOutput s.b).toNat → s.pc.value.toNat < s.mem.size →
    ∃ t u, exec .store s = .next t ∧ invoke .pcRead t = .next u ∧
      u.reply = some (.byte ((regOutput s.a).setWidth 8))

/-- R64: a read, repeated, replies the same, and a step that reads leaves the block as it was. -/
def Obligations.ReadsAreIdempotent : Prop :=
  ∀ (op : DriverOp) (s : State),
    (match op with
    | .memRead _ => true | .pcGet => true | .pcRead => true
    | .aluGetResult => true | .aluGetRegA => true | .aluGetRegB => true
    | _ => false) = true →
    ∃ t u, invoke op s = .next t ∧ invoke op t = .next u ∧ u.reply = t.reply ∧ t.reply ≠ none ∧
      SameBlock s t ∧ SameBlock s u
end

