-- ==== Sys2Proof/Laws/State.lean ====
section
/-! SUPPORT. One lemma for each field of the state under each one-field update, and under the named operations that
are made of them. -/

namespace Sys2Proof.Machine.State

variable (s : State)

@[simp] theorem setA_a (x : Reg 4) : (s.setA x).a = x := rfl
@[simp] theorem setA_b (x : Reg 4) : (s.setA x).b = s.b := rfl
@[simp] theorem setA_r (x : Reg 4) : (s.setA x).r = s.r := rfl
@[simp] theorem setA_pc (x : Reg 4) : (s.setA x).pc = s.pc := rfl
@[simp] theorem setA_mem (x : Reg 4) : (s.setA x).mem = s.mem := rfl
@[simp] theorem setA_execClk (x : Reg 4) : (s.setA x).execClk = s.execClk := rfl
@[simp] theorem setA_script (x : Reg 4) : (s.setA x).script = s.script := rfl
@[simp] theorem setA_reply (x : Reg 4) : (s.setA x).reply = s.reply := rfl

@[simp] theorem setB_a (x : Reg 4) : (s.setB x).a = s.a := rfl
@[simp] theorem setB_b (x : Reg 4) : (s.setB x).b = x := rfl
@[simp] theorem setB_r (x : Reg 4) : (s.setB x).r = s.r := rfl
@[simp] theorem setB_pc (x : Reg 4) : (s.setB x).pc = s.pc := rfl
@[simp] theorem setB_mem (x : Reg 4) : (s.setB x).mem = s.mem := rfl
@[simp] theorem setB_execClk (x : Reg 4) : (s.setB x).execClk = s.execClk := rfl
@[simp] theorem setB_script (x : Reg 4) : (s.setB x).script = s.script := rfl
@[simp] theorem setB_reply (x : Reg 4) : (s.setB x).reply = s.reply := rfl

@[simp] theorem setR_a (x : Reg 4) : (s.setR x).a = s.a := rfl
@[simp] theorem setR_b (x : Reg 4) : (s.setR x).b = s.b := rfl
@[simp] theorem setR_r (x : Reg 4) : (s.setR x).r = x := rfl
@[simp] theorem setR_pc (x : Reg 4) : (s.setR x).pc = s.pc := rfl
@[simp] theorem setR_mem (x : Reg 4) : (s.setR x).mem = s.mem := rfl
@[simp] theorem setR_execClk (x : Reg 4) : (s.setR x).execClk = s.execClk := rfl
@[simp] theorem setR_script (x : Reg 4) : (s.setR x).script = s.script := rfl
@[simp] theorem setR_reply (x : Reg 4) : (s.setR x).reply = s.reply := rfl

@[simp] theorem setPc_a (x : ProgramCounter) : (s.setPc x).a = s.a := rfl
@[simp] theorem setPc_b (x : ProgramCounter) : (s.setPc x).b = s.b := rfl
@[simp] theorem setPc_r (x : ProgramCounter) : (s.setPc x).r = s.r := rfl
@[simp] theorem setPc_pc (x : ProgramCounter) : (s.setPc x).pc = x := rfl
@[simp] theorem setPc_mem (x : ProgramCounter) : (s.setPc x).mem = s.mem := rfl
@[simp] theorem setPc_execClk (x : ProgramCounter) : (s.setPc x).execClk = s.execClk := rfl
@[simp] theorem setPc_script (x : ProgramCounter) : (s.setPc x).script = s.script := rfl
@[simp] theorem setPc_reply (x : ProgramCounter) : (s.setPc x).reply = s.reply := rfl

@[simp] theorem setMem_a (x : Memory) : (s.setMem x).a = s.a := rfl
@[simp] theorem setMem_b (x : Memory) : (s.setMem x).b = s.b := rfl
@[simp] theorem setMem_r (x : Memory) : (s.setMem x).r = s.r := rfl
@[simp] theorem setMem_pc (x : Memory) : (s.setMem x).pc = s.pc := rfl
@[simp] theorem setMem_mem (x : Memory) : (s.setMem x).mem = x := rfl
@[simp] theorem setMem_execClk (x : Memory) : (s.setMem x).execClk = s.execClk := rfl
@[simp] theorem setMem_script (x : Memory) : (s.setMem x).script = s.script := rfl
@[simp] theorem setMem_reply (x : Memory) : (s.setMem x).reply = s.reply := rfl

@[simp] theorem setExecClk_a (x : Bool) : (s.setExecClk x).a = s.a := rfl
@[simp] theorem setExecClk_b (x : Bool) : (s.setExecClk x).b = s.b := rfl
@[simp] theorem setExecClk_r (x : Bool) : (s.setExecClk x).r = s.r := rfl
@[simp] theorem setExecClk_pc (x : Bool) : (s.setExecClk x).pc = s.pc := rfl
@[simp] theorem setExecClk_mem (x : Bool) : (s.setExecClk x).mem = s.mem := rfl
@[simp] theorem setExecClk_execClk (x : Bool) : (s.setExecClk x).execClk = x := rfl
@[simp] theorem setExecClk_script (x : Bool) : (s.setExecClk x).script = s.script := rfl
@[simp] theorem setExecClk_reply (x : Bool) : (s.setExecClk x).reply = s.reply := rfl

@[simp] theorem setScript_a (x : List DriverOp) : (s.setScript x).a = s.a := rfl
@[simp] theorem setScript_b (x : List DriverOp) : (s.setScript x).b = s.b := rfl
@[simp] theorem setScript_r (x : List DriverOp) : (s.setScript x).r = s.r := rfl
@[simp] theorem setScript_pc (x : List DriverOp) : (s.setScript x).pc = s.pc := rfl
@[simp] theorem setScript_mem (x : List DriverOp) : (s.setScript x).mem = s.mem := rfl
@[simp] theorem setScript_execClk (x : List DriverOp) : (s.setScript x).execClk = s.execClk := rfl
@[simp] theorem setScript_script (x : List DriverOp) : (s.setScript x).script = x := rfl
@[simp] theorem setScript_reply (x : List DriverOp) : (s.setScript x).reply = s.reply := rfl

@[simp] theorem setReply_a (x : Option Reply) : (s.setReply x).a = s.a := rfl
@[simp] theorem setReply_b (x : Option Reply) : (s.setReply x).b = s.b := rfl
@[simp] theorem setReply_r (x : Option Reply) : (s.setReply x).r = s.r := rfl
@[simp] theorem setReply_pc (x : Option Reply) : (s.setReply x).pc = s.pc := rfl
@[simp] theorem setReply_mem (x : Option Reply) : (s.setReply x).mem = s.mem := rfl
@[simp] theorem setReply_execClk (x : Option Reply) : (s.setReply x).execClk = s.execClk := rfl
@[simp] theorem setReply_script (x : Option Reply) : (s.setReply x).script = s.script := rfl
@[simp] theorem setReply_reply (x : Option Reply) : (s.setReply x).reply = x := rfl

end Sys2Proof.Machine.State

namespace Sys2Proof.Machine

variable (s : State)

@[simp] theorem aluLoadA_a (d : Nibble) (clk : Bool) : (aluLoadA d clk s).a = regLoad s.a d clk := rfl
@[simp] theorem aluLoadA_b (d : Nibble) (clk : Bool) : (aluLoadA d clk s).b = s.b := rfl
@[simp] theorem aluLoadA_r (d : Nibble) (clk : Bool) : (aluLoadA d clk s).r = s.r := rfl
@[simp] theorem aluLoadA_pc (d : Nibble) (clk : Bool) : (aluLoadA d clk s).pc = s.pc := rfl
@[simp] theorem aluLoadA_mem (d : Nibble) (clk : Bool) : (aluLoadA d clk s).mem = s.mem := rfl
@[simp] theorem aluLoadA_execClk (d : Nibble) (clk : Bool) : (aluLoadA d clk s).execClk = s.execClk := rfl
@[simp] theorem aluLoadA_script (d : Nibble) (clk : Bool) : (aluLoadA d clk s).script = s.script := rfl
@[simp] theorem aluLoadA_reply (d : Nibble) (clk : Bool) : (aluLoadA d clk s).reply = s.reply := rfl

@[simp] theorem aluLoadB_a (d : Nibble) (clk : Bool) : (aluLoadB d clk s).a = s.a := rfl
@[simp] theorem aluLoadB_b (d : Nibble) (clk : Bool) : (aluLoadB d clk s).b = regLoad s.b d clk := rfl
@[simp] theorem aluLoadB_r (d : Nibble) (clk : Bool) : (aluLoadB d clk s).r = s.r := rfl
@[simp] theorem aluLoadB_pc (d : Nibble) (clk : Bool) : (aluLoadB d clk s).pc = s.pc := rfl
@[simp] theorem aluLoadB_mem (d : Nibble) (clk : Bool) : (aluLoadB d clk s).mem = s.mem := rfl
@[simp] theorem aluLoadB_execClk (d : Nibble) (clk : Bool) : (aluLoadB d clk s).execClk = s.execClk := rfl
@[simp] theorem aluLoadB_script (d : Nibble) (clk : Bool) : (aluLoadB d clk s).script = s.script := rfl
@[simp] theorem aluLoadB_reply (d : Nibble) (clk : Bool) : (aluLoadB d clk s).reply = s.reply := rfl

@[simp] theorem latchResult_a (d : Nibble) : (latchResult d s).a = s.a := rfl
@[simp] theorem latchResult_b (d : Nibble) : (latchResult d s).b = s.b := rfl
@[simp] theorem latchResult_r (d : Nibble) : (latchResult d s).r = regLoad s.r d s.execClk := rfl
@[simp] theorem latchResult_pc (d : Nibble) : (latchResult d s).pc = s.pc := rfl
@[simp] theorem latchResult_mem (d : Nibble) : (latchResult d s).mem = s.mem := rfl
@[simp] theorem latchResult_execClk (d : Nibble) : (latchResult d s).execClk = s.execClk := rfl
@[simp] theorem latchResult_script (d : Nibble) : (latchResult d s).script = s.script := rfl
@[simp] theorem latchResult_reply (d : Nibble) : (latchResult d s).reply = s.reply := rfl

@[simp] theorem holdResult_a : (holdResult s).a = s.a := rfl
@[simp] theorem holdResult_b : (holdResult s).b = s.b := rfl
@[simp] theorem holdResult_r : (holdResult s).r = regLoad s.r (regOutput s.r) s.execClk := rfl
@[simp] theorem holdResult_pc : (holdResult s).pc = s.pc := rfl
@[simp] theorem holdResult_mem : (holdResult s).mem = s.mem := rfl
@[simp] theorem holdResult_execClk : (holdResult s).execClk = s.execClk := rfl
@[simp] theorem holdResult_script : (holdResult s).script = s.script := rfl
@[simp] theorem holdResult_reply : (holdResult s).reply = s.reply := rfl

@[simp] theorem clockPc_a (clk : Bool) : (clockPc clk s).a = s.a := rfl
@[simp] theorem clockPc_b (clk : Bool) : (clockPc clk s).b = s.b := rfl
@[simp] theorem clockPc_r (clk : Bool) : (clockPc clk s).r = s.r := rfl
@[simp] theorem clockPc_pc (clk : Bool) : (clockPc clk s).pc = pcUpdate s.pc clk := rfl
@[simp] theorem clockPc_mem (clk : Bool) : (clockPc clk s).mem = s.mem := rfl
@[simp] theorem clockPc_execClk (clk : Bool) : (clockPc clk s).execClk = s.execClk := rfl
@[simp] theorem clockPc_script (clk : Bool) : (clockPc clk s).script = s.script := rfl
@[simp] theorem clockPc_reply (clk : Bool) : (clockPc clk s).reply = s.reply := rfl

@[simp] theorem beginOp_a (l : List DriverOp) : (beginOp l s).a = s.a := rfl
@[simp] theorem beginOp_b (l : List DriverOp) : (beginOp l s).b = s.b := rfl
@[simp] theorem beginOp_r (l : List DriverOp) : (beginOp l s).r = s.r := rfl
@[simp] theorem beginOp_pc (l : List DriverOp) : (beginOp l s).pc = s.pc := rfl
@[simp] theorem beginOp_mem (l : List DriverOp) : (beginOp l s).mem = s.mem := rfl
@[simp] theorem beginOp_execClk (l : List DriverOp) : (beginOp l s).execClk = s.execClk := rfl
@[simp] theorem beginOp_script (l : List DriverOp) : (beginOp l s).script = l := rfl
@[simp] theorem beginOp_reply (l : List DriverOp) : (beginOp l s).reply = none := rfl

end Sys2Proof.Machine
end

