-- ==== Sys2Proof/Laws/Ops.lean ====
section
/-! SUPPORT. What each shared operation does, said once: the bit cell and the register, the memory, the program
counter, the latch of R. -/

namespace Sys2Proof.Machine

/-! ### The gate layer -/

theorem and4_eq : ∀ a b : Nibble, and4 a b = a &&& b := by decide
theorem or4_eq : ∀ a b : Nibble, or4 a b = a ||| b := by decide
theorem xor4_eq : ∀ a b : Nibble, xor4 a b = a ^^^ b := by decide
theorem add4_fst : ∀ a b : Nibble, (add4 a b).1 = a + b := by decide

/-! ### The register -/

section Register

variable {n : Nat}

@[simp] theorem regLoad_cell (x : Reg n) (d : BitVec n) (clk : Bool) (i : Nat) (h : i < n) :
    (regLoad x d clk).cells[i] = cellUpdate x.cells[i] d[i] clk := by
  simp [regLoad]

@[simp] theorem regOutput_bit (x : Reg n) (i : Nat) (h : i < n) : (regOutput x)[i] = x.cells[i].q := by
  simp [regOutput, cellOutput]

@[simp] theorem regLoad_pclk [NeZero n] (x : Reg n) (d : BitVec n) (clk : Bool) :
    (regLoad x d clk).pclk = clk := by
  simp [Reg.pclk, cellUpdate]

theorem regLoad_sampled (x : Reg n) (d : BitVec n) (clk : Bool) : (regLoad x d clk).Sampled clk := by
  intro i; simp [cellUpdate]

theorem regLoad_coherent [NeZero n] (x : Reg n) (d : BitVec n) (clk : Bool) :
    (regLoad x d clk).Coherent := by
  simpa only [Reg.Coherent, regLoad_pclk] using regLoad_sampled x d clk

theorem Reg.Sampled.pclk_eq [NeZero n] {x : Reg n} {c : Bool} (h : x.Sampled c) : x.pclk = c :=
  h ⟨0, Nat.pos_of_neZero n⟩

theorem Reg.Sampled.coherent [NeZero n] {x : Reg n} {c : Bool} (h : x.Sampled c) : x.Coherent := by
  rw [Reg.Coherent, h.pclk_eq]; exact h

/-- The two forms of R61 agree on a register whose cells agree. -/
theorem regOutput_regLoad [NeZero n] {x : Reg n} (hx : x.Coherent) (d : BitVec n) (clk : Bool) :
    regOutput (regLoad x d clk) = if clk = true ∧ x.pclk = false then d else regOutput x := by
  apply BitVec.eq_of_getElem_eq
  intro i hi
  have h : x.cells[i].pclk = x.pclk := hx ⟨i, hi⟩
  cases hc : clk <;> cases hp : x.pclk <;>
    simp [cellUpdate, risingEdge, h, hp]

theorem regLoad_loaded [NeZero n] {x : Reg n} (hx : x.Coherent) (d : BitVec n) (clk : Bool) :
    Loaded x (regLoad x d clk) d clk :=
  ⟨regOutput_regLoad hx d clk, regLoad_sampled x d clk⟩

/-- A register that is offered its own output keeps it, whatever the clock. -/
@[simp] theorem regOutput_hold (x : Reg n) (clk : Bool) :
    regOutput (regLoad x (regOutput x) clk) = regOutput x := by
  apply BitVec.eq_of_getElem_eq
  intro i hi
  simp [cellUpdate]

/-- With the clock low no register takes data. -/
@[simp] theorem regOutput_regLoad_low (x : Reg n) (d : BitVec n) :
    regOutput (regLoad x d false) = regOutput x := by
  apply BitVec.eq_of_getElem_eq
  intro i hi
  simp [cellUpdate, risingEdge]

theorem fresh_sampled : (Reg.fresh n).Sampled false := by
  intro i; simp [Reg.fresh, BitCell.fresh]

end Register

/-! ### The memory -/

@[simp] theorem inRange_iff (m : Memory) (a : Addr) : inRange m a = true ↔ a.toNat < m.size := by
  simp [inRange]

theorem cellsRising_mono {lo lo' hi : Nat} (h : lo' ≤ lo) :
    ∀ {l : List Host.Cell}, cellsRising lo hi l = true → cellsRising lo' hi l = true
  | [], _ => rfl
  | (_, _) :: _, hl => by
    simp only [cellsRising, Bool.and_eq_true, decide_eq_true_eq] at hl ⊢
    exact ⟨⟨h.trans hl.1.1, hl.1.2⟩, hl.2⟩

/-- Below the first possible key nothing is listed. -/
theorem listed_below {lo hi k : Nat} (h : k < lo) :
    ∀ {l : List Host.Cell}, cellsRising lo hi l = true → listed l k = 0#8
  | [], _ => rfl
  | (j, _) :: _, hl => by
    simp only [cellsRising, Bool.and_eq_true, decide_eq_true_eq] at hl
    simp [listed, show k < j by omega]

/-- Putting a byte at the head of a rising list whose keys are larger. -/
theorem listed_consCell {hi k : Nat} {v : Byte} {l : List Host.Cell}
    (hl : cellsRising (k + 1) hi l = true) (x : Nat) :
    listed (consCell k v l) x = if x = k then v else listed l x := by
  unfold consCell
  by_cases hv : v = 0#8
  · simp only [hv, if_true]
    split
    · next hx => rw [hx]; exact listed_below (Nat.lt_succ_self k) hl
    · rfl
  · simp only [hv, if_false, listed]
    by_cases hx : x < k
    · simp [hx, show x ≠ k by omega, listed_below (show x < k + 1 by omega) hl]
    · simp [hx]

/-- Reading after a write to the list: the byte written at its address, the old byte elsewhere. -/
theorem listed_relist {hi : Nat} (k : Nat) (v : Byte) (x : Nat) :
    ∀ {lo : Nat} {l : List Host.Cell}, cellsRising lo hi l = true →
      listed (relist l k v) x = if x = k then v else listed l x
  | _, [], _ => by
    simpa [relist] using listed_consCell (hi := 0) (k := k) (v := v) (l := []) rfl x
  | lo, (j, w) :: t, hl => by
    have hl' := hl
    simp only [cellsRising, Bool.and_eq_true, decide_eq_true_eq] at hl
    unfold relist
    split
    · next hk =>
      have hr : cellsRising (k + 1) hi ((j, w) :: t) = true := by
        simp only [cellsRising, Bool.and_eq_true, decide_eq_true_eq]
        exact ⟨⟨by omega, hl.1.2⟩, hl.2⟩
      exact listed_consCell hr x
    · split
      · next hk =>
        subst hk
        rw [listed_consCell hl.2]
        by_cases hx : x = k
        · simp [hx]
        · by_cases hlt : x < k
          · simp [hx, listed, hlt, listed_below (show x < k + 1 by omega) hl.2]
          · simp [hx, listed, hlt]
      · next h1 h2 =>
        simp only [listed]
        by_cases hlt : x < j
        · simp [hlt, show x ≠ k by omega]
        · by_cases hx : x = j
          · simp [hx, show j ≠ k by omega]
          · simp only [hlt, hx, if_false]
            exact listed_relist k v x hl.2

theorem consCell_rising {lo hi k : Nat} {v : Byte} {l : List Host.Cell} (h1 : lo ≤ k) (h2 : k < hi)
    (hl : cellsRising (k + 1) hi l = true) : cellsRising lo hi (consCell k v l) = true := by
  unfold consCell
  split
  · exact cellsRising_mono (by omega) hl
  · simp [cellsRising, h1, h2, hl]

theorem relist_rising {hi k : Nat} (v : Byte) (hk : k < hi) :
    ∀ {lo : Nat} {l : List Host.Cell}, lo ≤ k → cellsRising lo hi l = true →
      cellsRising lo hi (relist l k v) = true
  | _, [], h, _ => consCell_rising h hk rfl
  | lo, (j, w) :: t, h, hl => by
    simp only [cellsRising, Bool.and_eq_true, decide_eq_true_eq] at hl
    unfold relist
    split
    · next hj =>
      refine consCell_rising h hk ?_
      simp only [cellsRising, Bool.and_eq_true, decide_eq_true_eq]
      exact ⟨⟨by omega, hl.1.2⟩, hl.2⟩
    · split
      · next hj => subst hj; exact consCell_rising h hk hl.2
      · simp only [cellsRising, Bool.and_eq_true, decide_eq_true_eq]
        exact ⟨hl.1, relist_rising v hk (by omega) hl.2⟩

theorem consCell_nonzero {k : Nat} {v : Byte} {l : List Host.Cell}
    (h : (l.all fun c => c.2 != 0#8) = true) : ((consCell k v l).all fun c => c.2 != 0#8) = true := by
  unfold consCell
  split
  · exact h
  · next hv => rw [List.all_cons, h, Bool.and_true, bne_iff_ne]; exact hv

theorem relist_nonzero (k : Nat) (v : Byte) :
    ∀ {l : List Host.Cell}, (l.all fun c => c.2 != 0#8) = true →
      ((relist l k v).all fun c => c.2 != 0#8) = true
  | [], h => consCell_nonzero h
  | (j, w) :: t, h => by
    have ht : (t.all fun c => c.2 != 0#8) = true := by
      rw [List.all_cons, Bool.and_eq_true] at h; exact h.2
    unfold relist
    split
    · exact consCell_nonzero h
    · split
      · exact consCell_nonzero ht
      · rw [List.all_cons, Bool.and_eq_true] at h ⊢
        exact ⟨h.1, relist_nonzero k v ht⟩

/-- What the canonical form of a memory consists of. -/
theorem Memory.wf_iff (m : Memory) : m.wf = true ↔
    m.size ≤ Config.addressCount ∧ cellsRising 0 m.size m.cells = true ∧
      (m.cells.all fun c => c.2 != 0#8) = true := by
  simp only [Memory.wf, Bool.and_eq_true, decide_eq_true_eq, and_assoc]

@[simp] theorem memWrite_size (m : Memory) (a : Addr) (v : Byte) : (memWrite m a v).size = m.size := by
  unfold memWrite; split <;> rfl

/-- A write keeps the canonical form. -/
theorem memWrite_wf {m : Memory} (h : m.wf = true) (a : Addr) (v : Byte) : (memWrite m a v).wf = true := by
  rw [Memory.wf_iff] at h
  unfold memWrite
  split
  · next hr =>
    rw [inRange, decide_eq_true_eq] at hr
    rw [Memory.wf_iff]
    exact ⟨h.1, relist_rising v hr (Nat.zero_le _) h.2.1, relist_nonzero _ v h.2.2⟩
  · rw [Memory.wf_iff]; exact h

/-- A read after a write (R29, R30): the byte written, in range at its address; the old byte elsewhere. -/
theorem memRead_memWrite {m : Memory} (h : m.wf = true) (a : Addr) (v : Byte) (x : Addr) :
    memRead (memWrite m a v) x = if x = a ∧ a.toNat < m.size then v else memRead m x := by
  rw [Memory.wf_iff] at h
  by_cases ha : a.toNat < m.size
  · by_cases hx : x.toNat < m.size
    · simp only [memRead, memWrite, inRange, ha, hx, decide_true, if_true, and_true,
        listed_relist a.toNat v x.toNat h.2.1, BitVec.toNat_inj]
    · have hne : x ≠ a := fun e => hx (e ▸ ha)
      simp [memRead, memWrite, inRange, ha, hx, hne]
  · simp [memWrite, inRange, ha]

/-- A fresh memory is in canonical form. -/
theorem filter_rising {hi : Nat} {f : Host.Cell → Bool} :
    ∀ {lo : Nat} {l : List Host.Cell}, cellsRising lo hi l = true → cellsRising lo hi (l.filter f) = true
  | _, [], _ => rfl
  | lo, (j, w) :: t, hl => by
    simp only [cellsRising, Bool.and_eq_true, decide_eq_true_eq] at hl
    rw [List.filter_cons]
    split
    · simp only [cellsRising, Bool.and_eq_true, decide_eq_true_eq]
      exact ⟨hl.1, filter_rising hl.2⟩
    · exact cellsRising_mono (by omega) (filter_rising hl.2)

theorem Memory.fresh_wf {p : Params} (h : p.wf = true) : (Memory.fresh p).wf = true := by
  simp only [Params.wf, Bool.and_eq_true, decide_eq_true_eq] at h
  rw [Memory.wf_iff]
  refine ⟨h.1, filter_rising h.2, ?_⟩
  simp only [Memory.fresh, List.all_filter, List.all_eq_true]
  intro c _
  cases c.2 != 0#8 <;> rfl

/-! ### The program counter -/

theorem pcUpdate_value (p : ProgramCounter) (clk : Bool) :
    (pcUpdate p clk).value = if clk = true ∧ p.pclk = false then p.value + 1#16 else p.value := by
  cases clk <;> cases h : p.pclk <;> simp [pcUpdate, risingEdge, h]

@[simp] theorem pcUpdate_pclk (p : ProgramCounter) (clk : Bool) : (pcUpdate p clk).pclk = clk := rfl

/-! ### The memory action of STORE -/

theorem regRising_iff {n : Nat} [NeZero n] (x : Reg n) (clk : Bool) :
    regRising x clk = true ↔ clk = true ∧ x.pclk = false := by
  simp [regRising, risingEdge]

@[simp] theorem storeAction_a (s : State) : (storeAction s).a = s.a := by unfold storeAction; split <;> rfl
@[simp] theorem storeAction_b (s : State) : (storeAction s).b = s.b := by unfold storeAction; split <;> rfl
@[simp] theorem storeAction_r (s : State) : (storeAction s).r = s.r := by unfold storeAction; split <;> rfl
@[simp] theorem storeAction_pc (s : State) : (storeAction s).pc = s.pc := by unfold storeAction; split <;> rfl
@[simp] theorem storeAction_execClk (s : State) : (storeAction s).execClk = s.execClk := by
  unfold storeAction; split <;> rfl
@[simp] theorem storeAction_script (s : State) : (storeAction s).script = s.script := by
  unfold storeAction; split <;> rfl
@[simp] theorem storeAction_reply (s : State) : (storeAction s).reply = s.reply := by
  unfold storeAction; split <;> rfl

theorem storeAction_mem (s : State) : (storeAction s).mem =
    if s.execClk = true ∧ s.r.pclk = false then memWrite s.mem (effectiveAddress s) (storeData s) else s.mem := by
  unfold storeAction
  by_cases h : regRising s.r s.execClk = true
  · rw [if_pos h, if_pos ((regRising_iff _ _).1 h)]; rfl
  · rw [if_neg h, if_neg (mt (regRising_iff _ _).2 h)]

theorem effectiveAddress_eq (s : State) : effectiveAddress s = (regOutput s.b).setWidth 16 := by
  have h := (regOutput s.b).isLt
  apply BitVec.eq_of_toNat_eq
  simp only [effectiveAddress, zext16, fromBits, aluGetRegB, BitVec.toNat_setWidth]
  omega

theorem storeData_eq (s : State) : storeData s = (regOutput s.a).setWidth 8 := rfl

theorem effectiveAddress_lt (s : State) : (effectiveAddress s).toNat < 16 := by
  have h := (aluGetRegB s).isLt
  simp only [effectiveAddress, zext16, fromBits, BitVec.toNat_setWidth]
  omega

theorem storeData_lt (s : State) : (storeData s).toNat < 16 := by
  have h := (aluGetRegA s).isLt
  simp only [storeData, fromBits, BitVec.toNat_setWidth]
  omega

end Sys2Proof.Machine
end

