-- ==== Sys2Proof/Laws/Exec.lean ====
section
/-! SUPPORT. Everything an execution, an operation of the driver and a step can do, said once: later proofs take
these apart and do not unfold the meanings. -/

namespace Sys2Proof.Machine

/-- All that an `AluExecute` of a state whose `execClk` is set can change: R is loaded, A may be loaded, the byte at
the effective address may become A. -/
structure ExecEffect (s t : State) : Prop where
  a : t.a = s.a ∨ ∃ d, t.a = regLoad s.a d s.execClk
  b : t.b = s.b
  r : ∃ d, t.r = regLoad s.r d s.execClk
  pc : t.pc = s.pc
  mem : t.mem = s.mem ∨
    (s.execClk = true ∧ s.r.pclk = false ∧ t.mem = memWrite s.mem (effectiveAddress s) (storeData s))
  driver : SameDriver s t

theorem latchResult_effect (d : Nibble) (s : State) : ExecEffect s (latchResult d s) :=
  ⟨.inl rfl, rfl, ⟨d, rfl⟩, rfl, .inl rfl, rfl, rfl, rfl⟩

theorem execLoad_effect (s : State) : ∃ t, execLoad s = .next t ∧ ExecEffect s t :=
  ⟨_, rfl, .inr ⟨_, rfl⟩, rfl, ⟨_, rfl⟩, rfl, .inl rfl, rfl, rfl, rfl⟩

theorem execStore_effect (s : State) : ∃ t, execStore s = .next t ∧ ExecEffect s t := by
  refine ⟨_, rfl, .inl ?_, ?_, ⟨_, by rw [holdResult_r, storeAction_r, storeAction_execClk]⟩, ?_, ?_, ?_, ?_, ?_⟩
  case refine_4 =>
    rw [holdResult_mem, storeAction_mem]
    split
    · next h => exact .inr ⟨h.1, h.2, rfl⟩
    · exact .inl rfl
  all_goals simp

theorem exec_effect (i : Instr) (s : State) : ∃ t, exec i s = .next t ∧ ExecEffect s t := by
  cases i with
  | and => exact ⟨_, rfl, latchResult_effect _ _⟩
  | or => exact ⟨_, rfl, latchResult_effect _ _⟩
  | xor => exact ⟨_, rfl, latchResult_effect _ _⟩
  | add => exact ⟨_, rfl, latchResult_effect _ _⟩
  | load => exact execLoad_effect s
  | store => exact execStore_effect s

/-- What `AluExecute` runs: the instruction its byte decodes to, or the unknown opcode's pass-through. -/
theorem aluExecute_cases (op : Byte) (clk : Bool) (s : State) :
    (∃ i, decode op = .ok i ∧ aluExecute op clk s = exec i (s.setExecClk clk)) ∨
    (decode op = .error (.unknownOpcode op) ∧ aluExecute op clk s = execUnknown (s.setExecClk clk)) := by
  unfold aluExecute
  cases h : decode op with
  | ok i => exact .inl ⟨i, rfl, rfl⟩
  | error e =>
    cases e with
    | unknownOpcode o =>
      have ho : o = op := by
        unfold decode at h
        repeat' split at h
        all_goals simp_all
      exact .inr ⟨by rw [ho], rfl⟩

theorem aluExecute_effect (op : Byte) (clk : Bool) (s : State) :
    ∃ t, aluExecute op clk s = .next t ∧ ExecEffect (s.setExecClk clk) t := by
  rcases aluExecute_cases op clk s with ⟨i, _, h⟩ | ⟨_, h⟩
  · rw [h]; exact exec_effect i _
  · rw [h]; exact ⟨_, rfl, latchResult_effect _ _⟩

/-- A tick is an `AluExecute` in the state whose counter has seen the clock. -/
theorem tick_effect (clk : Bool) (s : State) :
    ∃ t, tick clk s = .next t ∧ ExecEffect ((clockPc clk s).setExecClk clk) t :=
  aluExecute_effect _ _ _

/-- A lock-step tick is a tick followed by a load of each operand register. -/
theorem lockstepTick_effect (clk : Bool) (reqA reqB : Option Nibble) (s : State) :
    ∃ t, tick clk s = .next t ∧ ExecEffect ((clockPc clk s).setExecClk clk) t ∧
      lockstepTick clk reqA reqB s = .next (lockstepLoads clk reqA reqB t) := by
  obtain ⟨t, ht, he⟩ := tick_effect clk s
  exact ⟨t, ht, he, by rw [lockstepTick, ht]; rfl⟩

theorem step_nil {s : State} (h : s.script = []) : step s = .next s := by
  unfold step; rw [h]

theorem step_cons {s : State} {op : DriverOp} {rest : List DriverOp} (h : s.script = op :: rest) :
    step s = invoke op (beginOp rest s) := by
  unfold step; rw [h]

/-! ### Placing an instruction -/

section Placing

variable (s : State) (v : Byte)

@[simp] theorem placeInstruction_a : (placeInstruction v s).a = s.a := rfl
@[simp] theorem placeInstruction_b : (placeInstruction v s).b = s.b := rfl
@[simp] theorem placeInstruction_r : (placeInstruction v s).r = s.r := rfl
@[simp] theorem placeInstruction_pc : (placeInstruction v s).pc = s.pc := rfl
@[simp] theorem placeInstruction_mem :
    (placeInstruction v s).mem = placeByte s.mem (pcUpdate s.pc true).value v := rfl
@[simp] theorem placeInstruction_execClk : (placeInstruction v s).execClk = s.execClk := rfl
@[simp] theorem placeInstruction_script : (placeInstruction v s).script = .tick true :: s.script := rfl
@[simp] theorem placeInstruction_reply : (placeInstruction v s).reply = s.reply := rfl

end Placing

/-- At and above the bound of a rising list nothing is listed. -/
theorem listed_above {lo hi k : Nat} (hk : hi ≤ k) :
    ∀ {l : List Host.Cell}, cellsRising lo hi l = true → listed l k = 0#8
  | [], _ => rfl
  | (j, _) :: _, hl => by
    simp only [cellsRising, Bool.and_eq_true, decide_eq_true_eq] at hl
    simp only [listed, show ¬ k < j by omega, show ¬ k = j by omega, if_false]
    exact listed_above hk hl.2

theorem cellsRising_grow {hi hi' : Nat} (h : hi ≤ hi') :
    ∀ {lo : Nat} {l : List Host.Cell}, cellsRising lo hi l = true → cellsRising lo hi' l = true
  | _, [], _ => rfl
  | _, (_, _) :: _, hl => by
    simp only [cellsRising, Bool.and_eq_true, decide_eq_true_eq] at hl ⊢
    exact ⟨⟨hl.1.1, by omega⟩, cellsRising_grow h hl.2⟩

/-- The memory made large enough for one address: in canonical form, and every address reads as before. -/
theorem grow_wf {m : Memory} (h : m.wf = true) (a : Addr) :
    ({ m with size := max m.size (a.toNat + 1) } : Memory).wf = true := by
  rw [Memory.wf_iff] at h ⊢
  have ha := a.isLt
  refine ⟨?_, cellsRising_grow (Nat.le_max_left _ _) h.2.1, h.2.2⟩
  have h1 := h.1
  simp only [Config.addressCount] at h1 ⊢
  omega

theorem grow_read {m : Memory} (h : m.wf = true) (n : Nat) (x : Addr) :
    memRead { m with size := max m.size n } x = memRead m x := by
  rw [Memory.wf_iff] at h
  by_cases hx : x.toNat < m.size
  · have hx' : x.toNat < max m.size n := by omega
    simp only [memRead, inRange, hx, hx']
  · rw [memRead, memRead, listed_above (by omega) h.2.1]
    split <;> split <;> rfl

/-- Reading after an instruction's byte is placed. -/
theorem memRead_placeByte {m : Memory} (h : m.wf = true) (a : Addr) (v : Byte) (x : Addr) :
    memRead (placeByte m a v) x = if x = a then v else memRead m x := by
  rw [placeByte, memRead_memWrite (grow_wf h a), grow_read h]
  simp

end Sys2Proof.Machine
end

