-- ==== Sys2Proof/Laws/PerInstr.lean ====
section
/-! SUPPORT. Statements about every instruction as syntax, one lemma for each constructor. -/

namespace Sys2Proof.Laws.OneByte

/-- The instruction is well formed and its byte is one of the six opcodes 0x00 to 0x05 (R43, R45). -/
def Statement (i : Instr) : Prop := i.wf = true ∧ (encode i).toNat < 6

theorem and : Statement .and := ⟨rfl, by decide⟩
theorem or : Statement .or := ⟨rfl, by decide⟩
theorem xor : Statement .xor := ⟨rfl, by decide⟩
theorem add : Statement .add := ⟨rfl, by decide⟩
theorem load : Statement .load := ⟨rfl, by decide⟩
theorem store : Statement .store := ⟨rfl, by decide⟩

end Sys2Proof.Laws.OneByte
end

