-- ==== Sys2Proof/Tests/Slice0.lean ====
section
/-! SUPPORT. Tests on fixed values, their expected results from `spec/95_test_vectors.md` (V1 to V22, named at each)
or worked out by hand from the rule named; the smoke tests of the checks; and, for each statement with hypotheses, a
state and operands that meet them. -/

namespace Sys2Proof.Tests

open Sys2Proof.Machine

/-! ### Small states -/

/-- A register holding `d`, every cell of which saw the clock `c` last. -/
def reg (d : Nibble) (c : Bool) : Reg 4 := { cells := Vector.ofFn fun i => { q := d.getLsbD i, pclk := c } }

/-- A block with A, B, R armed, a memory of 16 bytes, and clock 1 at the ALU. -/
def block (a b r : Nibble) (cells : List Host.Cell) : State :=
  { State.reset with
    a := reg a false, b := reg b false, r := reg r false
    mem := { size := 16, cells := cells }, execClk := true }

/-- The same with a list of operations for the driver. -/
def driven (s : State) (l : List DriverOp) : State := { s with script := l }

/-- What a test reads of a state: A, B, R, their previous clocks, the counter's value. -/
structure View where
  a     : Nibble
  b     : Nibble
  r     : Nibble
  aPclk : Bool
  bPclk : Bool
  rPclk : Bool
  pc    : Addr
  deriving DecidableEq, Repr

/-- The view of the next state. -/
def seen : Host.Outcome State Fault Refusal → Option View
  | .next t => some ⟨regOutput t.a, regOutput t.b, regOutput t.r, t.a.pclk, t.b.pclk, t.r.pclk, t.pc.value⟩
  | .fault _ => none
  | .refused _ => none

/-- The listed bytes of memory after an outcome. -/
def cellsOf : Host.Outcome State Fault Refusal → Option (List Host.Cell)
  | .next t => some t.mem.cells
  | .fault _ => none
  | .refused _ => none

/-- The reply after an outcome. -/
def replyOf : Host.Outcome State Fault Refusal → Option Reply
  | .next t => t.reply
  | .fault _ => none
  | .refused _ => none

/-! ### The checks refuse ill-formed terms (R28, R5) -/

theorem test_params_capacity_too_large : Params.wf { memSize := 65537, memInit := [] } = false := by decide
theorem test_params_image_out_of_range : Params.wf { memSize := 16, memInit := [(16, 1#8)] } = false := by decide
theorem test_params_image_not_rising : Params.wf { memSize := 16, memInit := [(3, 1#8), (3, 2#8)] } = false := by decide
theorem test_params_accepted : Params.wf { memSize := 16, memInit := [(3, 0#8), (15, 2#8)] } = true := by decide
theorem test_memory_lists_zero : Memory.wf { size := 16, cells := [(3, 0#8)] } = false := by decide
theorem test_memory_not_rising : Memory.wf { size := 16, cells := [(4, 1#8), (3, 1#8)] } = false := by decide
theorem test_memory_above_capacity : Memory.wf { size := 16, cells := [(16, 1#8)] } = false := by decide
theorem test_memory_too_large : Memory.wf { size := 65537, cells := [] } = false := by decide

/-! ### Decoding: the words of R45, bit by bit -/

theorem test_decode_and : decode 0b00000000#8 = .ok .and := by decide
theorem test_decode_or : decode 0b00000001#8 = .ok .or := by decide
theorem test_decode_xor : decode 0b00000010#8 = .ok .xor := by decide
theorem test_decode_add : decode 0b00000011#8 = .ok .add := by decide
theorem test_decode_load : decode 0b00000100#8 = .ok .load := by decide
theorem test_decode_store : decode 0b00000101#8 = .ok .store := by decide
theorem test_decode_six : decode 0b00000110#8 = .error (.unknownOpcode 0x06#8) := by decide
theorem test_decode_high_bit : decode 0b10000011#8 = .error (.unknownOpcode 0x83#8) := by decide
theorem test_decode_table_word : decodeTableWord 8 3 = some .add ∧ decodeTableWord 8 6 = none := by decide

/-! ### Helpers: V2, V3, V13, V16 -/

theorem test_full_adder_110 : fullAdder true true false = (false, true) := by decide
theorem test_add4_v3 : add4 0b0101#4 0b0011#4 = (0b1000#4, false) ∧ add4 0b1111#4 0b0001#4 = (0b0000#4, true) := by decide
theorem test_to_bits_v13 : toBits 0xAC#8 = 0b1100#4 ∧ fromBits 0b1010#4 = 10#8 := by decide
theorem test_xor4_v16 : xor4 0b1100#4 0b1010#4 = 0b0110#4 := by decide
theorem test_nand : gateNand true true = false ∧ gateNand true false = true := by decide

/-! ### The parts: V10, V11, V14, V15 -/

theorem test_cell_rising_v10 : cellUpdate { q := true, pclk := false } false true = { q := false, pclk := true } := by decide
theorem test_cell_high_v10 : cellUpdate { q := true, pclk := true } false true = { q := true, pclk := true } := by decide
theorem test_register_v11 : regLoad (reg 0b0000#4 false) 0b1010#4 true = reg 0b1010#4 true := by decide
theorem test_register_held_v11 : regLoad (reg 0b1010#4 true) 0b0101#4 true = reg 0b1010#4 true := by decide
theorem test_memory_bounds_v14 :
    memRead { size := 16, cells := [(15, 0xFF#8)] } 15#16 = 0xFF#8 ∧
    memWrite { size := 16, cells := [] } 16#16 0xEE#8 = { size := 16, cells := [] } := by decide
theorem test_memory_write_zero_unlists :
    memWrite { size := 16, cells := [(2, 5#8), (3, 7#8)] } 2#16 0#8 = { size := 16, cells := [(3, 7#8)] } := by decide
theorem test_pc_wraps_v15 : pcUpdate { value := 0xFFFF#16, pclk := false } true = { value := 0#16, pclk := true } := by decide
theorem test_pc_not_armed_v15 :
    pcUpdate (pcSet { value := 1#16, pclk := true } 0xFF#16) true = { value := 0xFF#16, pclk := true } := by decide

/-! ### The instructions: V16 to V21 -/

theorem test_and_v16 : seen (exec .and (block 0b1010#4 0b0011#4 0#4 [])) =
    some ⟨0b1010#4, 0b0011#4, 0b0010#4, false, false, true, 0#16⟩ := by decide
theorem test_or_v16 : seen (exec .or (block 0b1010#4 0b0011#4 0#4 [])) =
    some ⟨0b1010#4, 0b0011#4, 0b1011#4, false, false, true, 0#16⟩ := by decide
theorem test_xor_v16 : seen (exec .xor (block 0b1010#4 0b0011#4 0#4 [])) =
    some ⟨0b1010#4, 0b0011#4, 0b1001#4, false, false, true, 0#16⟩ := by decide
theorem test_add_wraps_v17 : seen (exec .add (block 0b1100#4 0b1010#4 0#4 [])) =
    some ⟨0b1100#4, 0b1010#4, 0b0110#4, false, false, true, 0#16⟩ := by decide
theorem test_add_held_high_v18 :
    seen (exec .add { block 0b1111#4 0b0001#4 0b0100#4 [] with r := reg 0b0100#4 true }) =
    some ⟨0b1111#4, 0b0001#4, 0b0100#4, false, false, true, 0#16⟩ := by decide
theorem test_load_v19 : seen (exec .load (block 0#4 0b1010#4 0#4 [(10, 0xAC#8)])) =
    some ⟨0b1100#4, 0b1010#4, 0#4, true, false, true, 0#16⟩ := by decide
theorem test_load_not_armed_v19 :
    seen (exec .load { block 0#4 0b1010#4 0#4 [(10, 0x0C#8)] with a := reg 0b0101#4 true }) =
    some ⟨0b0101#4, 0b1010#4, 0#4, true, false, true, 0#16⟩ := by decide
theorem test_store_v20 : cellsOf (exec .store (block 0b1010#4 0b1010#4 0#4 [(10, 0xAC#8)])) =
    some [(10, 0x0A#8)] := by decide
theorem test_store_r_not_armed_v20 :
    cellsOf (exec .store { block 0b1010#4 0b1010#4 0#4 [(10, 0xAC#8)] with r := reg 0#4 true }) =
    some [(10, 0xAC#8)] := by decide
theorem test_unknown_v21 : seen (aluExecute 0xFF#8 true (block 0b1010#4 0b0011#4 0b1101#4 [])) =
    some ⟨0b1010#4, 0b0011#4, 0b1101#4, false, false, true, 0#16⟩ := by decide

/-! ### Steps: V22, P2, P6, and an instruction placed after reset -/

theorem test_tick_v22 : seen (step (driven (block 0b0110#4 0b0011#4 0#4 [(0, 1#8), (1, 3#8), (2, 2#8)]) [.tick true])) =
    some ⟨0b0110#4, 0b0011#4, 0b1001#4, false, false, true, 1#16⟩ := by decide
theorem test_lockstep_p6 :
    seen (step (driven (block 0#4 0#4 0#4 [(1, 3#8)]) [.lockstepTick true (some 0b0101#4) (some 0b1100#4)])) =
    some ⟨0b0101#4, 0b1100#4, 0#4, true, true, true, 1#16⟩ := by decide
theorem test_lockstep_load_wins_p6 :
    seen (step (driven (block 0b0101#4 0b1100#4 0#4 [(1, 4#8), (12, 7#8)]) [.lockstepTick true (some 1#4) none])) =
    some ⟨0b0111#4, 0b1100#4, 0#4, true, true, true, 1#16⟩ := by decide
theorem test_read_reply_v14 :
    replyOf (step (driven (block 0#4 0#4 0#4 [(15, 0xFF#8)]) [.memRead 15#16])) = some (.byte 0xFF#8) := by decide
theorem test_placed_store_after_reset : seen (step (State.reset.withFetchWord 8 5)) =
    some ⟨0#4, 0#4, 0#4, false, false, true, 1#16⟩ := by decide
theorem test_reset_idles : step State.reset = .next State.reset := rfl

/-! ### Witnesses: a state and operands that meet each statement's hypotheses -/

/-- A block in which every hypothesis on coherence and memory holds, B addressing the last of 16 bytes. -/
def w : State := block 0b1010#4 0b1111#4 0b0101#4 [(1, 4#8), (2, 3#8), (15, 0x0C#8)]

theorem w_inv : Inv w := by decide

theorem witness_RegisterLoadIsParallelAndEdgeGated : (reg 0b1010#4 true).Coherent := by decide
theorem witness_MemReadReturnsStoredByteOrZero :
    w.mem.wf = true ∧ (15#16 : Addr).toNat < w.mem.size ∧ ¬ (16#16 : Addr).toNat < w.mem.size := by decide
theorem witness_MemWriteStoresOneByteInRange : w.mem.wf = true ∧ (15#16 : Addr).toNat < w.mem.size ∧
    w.mem.size ≤ (16#16 : Addr).toNat ∧ (14#16 : Addr) ≠ 15#16 := by decide
theorem witness_ReadReturnsLatestWrite : w.mem.wf = true ∧ (15#16 : Addr).toNat < w.mem.size ∧
    latestWrite 0#8 15#16 [(15#16, 1#8), (3#16, 2#8), (15#16, 9#8)] = 9#8 := by decide
theorem witness_MemoriesThatReadAlikeAreEqual :
    w.mem.wf = true ∧ w.mem.wf = true ∧ w.mem.size = w.mem.size ∧ ∀ a : Addr, memRead w.mem a = memRead w.mem a :=
  ⟨by decide, by decide, rfl, fun _ => rfl⟩
theorem witness_PcSetAndUpdateDoNotCommute : w.pc.pclk = false := rfl
theorem witness_AluLoadALoadsOnlyA : w.a.Coherent := by decide
theorem witness_AluLoadBLoadsOnlyB : w.b.Coherent := by decide
theorem witness_AndLatchesConjunction : w.r.Coherent ∧ w.execClk = true ∧ w.r.pclk = false := by decide
theorem witness_OrLatchesDisjunction : w.r.Coherent ∧ w.execClk = true ∧ w.r.pclk = false := by decide
theorem witness_XorLatchesExclusiveOr : w.r.Coherent ∧ w.execClk = true ∧ w.r.pclk = false := by decide
theorem witness_AddLatchesSumModulo16 : w.r.Coherent ∧ w.execClk = true ∧ w.r.pclk = false := by decide
theorem witness_LoadFillsAFromMemory :
    w.a.Coherent ∧ w.r.Coherent ∧ w.execClk = true ∧ w.a.pclk = false := by decide
theorem witness_StoreWritesAToMemory_in_range : w.r.Coherent ∧ w.mem.wf = true ∧ w.execClk = true ∧
    w.r.pclk = false ∧ effectiveAddress w = 15#16 ∧ (effectiveAddress w).toNat < w.mem.size := by decide
theorem witness_StoreWritesAToMemory_out_of_range :
    (w.setMem { size := 15, cells := [] }).r.Coherent ∧ (w.setMem { size := 15, cells := [] }).mem.wf = true ∧
    (w.setMem { size := 15, cells := [] }).mem.size ≤
      (effectiveAddress (w.setMem { size := 15, cells := [] })).toNat := by decide
theorem witness_StoreWritesAToMemory_no_edge : (w.setR (reg 0#4 true)).r.Coherent ∧
    (w.setR (reg 0#4 true)).mem.wf = true ∧ (w.setR (reg 0#4 true)).r.pclk = true := by decide
theorem witness_UnknownOpcodeOnlySamplesR : 6 ≤ (0x06#8 : Byte).toNat ∧ w.r.Coherent := by decide
theorem witness_HeldHighOnlyFirstExecutionLatches : w.r.Coherent ∧ w.mem.wf = true ∧
    (w.setR (reg 0#4 true)).r.Coherent ∧ (w.setR (reg 0#4 true)).r.pclk = true := by decide
theorem witness_DecodeAndEncodeAgree : decode 0x05#8 = .ok .store := by decide
theorem witness_UnknownOpcodesAreSixAndAbove : 6 ≤ (0x06#8 : Byte).toNat ∧ (0x05#8 : Byte).toNat < 6 := by decide
theorem witness_StepRunsDecodedInstruction_tick : (driven w [.tick true]).script = .tick true :: [] ∧
    decode (memRead (driven w [.tick true]).mem (pcUpdate (driven w [.tick true]).pc true).value) = .ok .load := by decide
theorem witness_StepRunsDecodedInstruction_execute :
    (driven w [.aluExecute 3#8 true]).script = .aluExecute 3#8 true :: [] ∧ decode 3#8 = .ok .add := by decide
theorem witness_PlacedInstructionRunsNext :
    State.reset.mem.wf = true ∧ decodeTableWord 8 5 = some .store := by decide
theorem witness_StepConsumesOneOperation :
    State.reset.script = [] ∧ (driven w [.pcGet]).script = .pcGet :: [] := ⟨rfl, rfl⟩
theorem witness_RisingTickMeaning : Inv (driven w [.tick true]) ∧
    (driven w [.tick true]).script = .tick true :: [] ∧ (driven w [.tick true]).pc.pclk = false ∧
    (driven w [.tick true]).r.pclk = false := by decide
/-- A state for each byte 0x00 to 0x06 at address 1: every opcode and an unknown one, about to be fetched. -/
def fetching (v : Byte) : State := driven (w.setMem (memWrite { size := 16, cells := [] } 1#16 v)) [.tick true]

theorem witness_RisingTickMeaning_each_opcode : ∀ k : Fin 7,
    Inv (fetching (BitVec.ofNat 8 k)) ∧ (fetching (BitVec.ofNat 8 k)).script = .tick true :: [] ∧
    (fetching (BitVec.ofNat 8 k)).pc.pclk = false ∧ (fetching (BitVec.ofNat 8 k)).r.pclk = false ∧
    memRead (fetching (BitVec.ofNat 8 k)).mem ((fetching (BitVec.ofNat 8 k)).pc.value + 1#16) = BitVec.ofNat 8 k := by
  decide
theorem witness_FallingTickOnlyArms : (driven w [.tick false]).script = .tick false :: [] := rfl
theorem witness_FetchBeyondMemoryExecutesAnd :
    (driven (w.setPc { value := 15#16, pclk := false }) [.tick true]).script = .tick true :: [] ∧
    w.mem.size ≤ (pcUpdate { value := 15#16, pclk := false } true).value.toNat := by decide
theorem witness_JumpExecutesTargetNext :
    (driven w [.pcSet (2#16 - 1#16), .tick true]).script = .pcSet (2#16 - 1#16) :: .tick true :: [] ∧
    w.pc.pclk = false ∧ decode (memRead w.mem 2#16) = .ok .add := by decide
theorem witness_JumpExecutesTargetNext_unknown :
    (driven w [.pcSet (15#16 - 1#16), .tick true]).script = .pcSet (15#16 - 1#16) :: .tick true :: [] ∧
    w.pc.pclk = false ∧ 6 ≤ (memRead w.mem 15#16).toNat := by decide
theorem witness_LoadIsLostWhenANotArmed :
    (driven (w.setA (reg 5#4 true)) [.tick true, .tick false]).script = .tick true :: .tick false :: [] ∧
    w.pc.pclk = false ∧ (w.setA (reg 5#4 true)).a.Sampled true ∧
    decode (memRead w.mem (w.pc.value + 1#16)) = .ok .load := by decide
theorem witness_LockstepTickLoadsAfterExecute : LockedAt (driven w [.lockstepTick true (some 1#4) none]) false ∧
    (driven w [.lockstepTick true (some 1#4) none]).script = .lockstepTick true (some 1#4) none :: [] := by decide
theorem witness_ConstructionGivesResetValues :
    Params.wf { memSize := 16, memInit := [(0, 5#8), (15, 1#8)] } = true := by decide
theorem witness_StepKeepsInvariant : Inv (driven w [.aluExecute 5#8 true]) := by decide
theorem witness_LockstepOperationKeepsLock :
    LockedAt w false ∧ keepsLockstep (.lockstepTick true none none) = true := by decide
theorem witness_LockstepRunKeepsLock :
    (driven w [.pcSet 0#16, .lockstepTick true none none]).script = [.pcSet 0#16, .lockstepTick true none none] ∧
    LockedAt (driven w [.pcSet 0#16, .lockstepTick true none none]) false ∧
    ∀ op ∈ [DriverOp.pcSet 0#16, .lockstepTick true none none], keepsLockstep op = true := by decide
theorem witness_ProgramsWriteOnlyLowNibblesBelow16 : (driven w [.aluExecute 5#8 true]).mem.wf = true ∧
    ∀ a v rest, (driven w [.aluExecute 5#8 true]).script ≠ .memWrite a v :: rest :=
  ⟨by decide, fun _ _ _ h => by simp [driven] at h⟩
theorem witness_HiddenPreviousClockDecides :
    regOutput (w.setA (reg 3#4 false)).a = regOutput (w.setA (reg 3#4 true)).a ∧
    (w.setA (reg 3#4 false)).a.Sampled false ∧ (w.setA (reg 3#4 true)).a.Sampled true ∧
    (15#4 : Nibble) ≠ regOutput (w.setA (reg 3#4 false)).a := by decide
theorem witness_StoredByteIsFetchedNext : w.mem.wf = true ∧ w.execClk = true ∧ w.r.Sampled false ∧
    (w.setPc { value := 15#16, pclk := false }).pc.value.toNat = (regOutput w.b).toNat ∧
    (w.setPc { value := 15#16, pclk := false }).pc.value.toNat < w.mem.size := by decide
theorem witness_ReadsAreIdempotent :
    (match DriverOp.pcRead with
    | .memRead _ => true | .pcGet => true | .pcRead => true
    | .aluGetResult => true | .aluGetRegA => true | .aluGetRegB => true
    | _ => false) = true := rfl

end Sys2Proof.Tests
end

namespace Sys2Proof.Machine

/-! ### A step performs one operation -/

/-- No execution changes the memory's capacity (R27): the store of a byte keeps it. -/
theorem ExecEffect.mem_size {s t : State} (h : ExecEffect s t) : t.mem.size = s.mem.size := by
  rcases h.mem with hm | ⟨_, _, hm⟩
  · rw [hm]
  · rw [hm, memWrite_size]

/-- What every operation leaves alone: the driver's list (R9; log 1) and the memory's capacity (R27). -/
structure KeepsListAndCapacity (s t : State) : Prop where
  script : t.script = s.script
  size : t.mem.size = s.mem.size

theorem ExecEffect.keepsListAndCapacity {s t : State} (h : ExecEffect s t) : KeepsListAndCapacity s t := by
  obtain ⟨_, hscript, _⟩ := h.driver
  exact ⟨hscript, h.mem_size⟩

theorem aluExecute_keepsListAndCapacity (op : Byte) (clk : Bool) (s : State) :
    ∃ t, aluExecute op clk s = .next t ∧ KeepsListAndCapacity s t := by
  obtain ⟨t, ht, he⟩ := aluExecute_effect op clk s
  obtain ⟨hscript, hsize⟩ := he.keepsListAndCapacity
  exact ⟨t, ht, hscript, hsize⟩

theorem tick_keepsListAndCapacity (clk : Bool) (s : State) :
    ∃ t, tick clk s = .next t ∧ KeepsListAndCapacity s t := by
  obtain ⟨t, ht, he⟩ := tick_effect clk s
  obtain ⟨hscript, hsize⟩ := he.keepsListAndCapacity
  exact ⟨t, ht, hscript, hsize⟩

/-- The operand loads at the end of a lock-step tick touch registers only, so the tick decides. -/
theorem lockstepTick_keepsListAndCapacity (clk : Bool) (reqA reqB : Option Nibble) (s : State) :
    ∃ t, lockstepTick clk reqA reqB s = .next t ∧ KeepsListAndCapacity s t := by
  obtain ⟨t, _, he, ht⟩ := lockstepTick_effect clk reqA reqB s
  obtain ⟨hscript, hsize⟩ := he.keepsListAndCapacity
  exact ⟨_, ht, hscript, hsize⟩

/-- Every operation of the driver answers a next state and keeps the driver's list and the capacity. -/
theorem invoke_keepsListAndCapacity (op : DriverOp) (s : State) :
    ∃ t, invoke op s = .next t ∧ KeepsListAndCapacity s t := by
  cases op with
  | memWrite a v => exact ⟨_, rfl, rfl, memWrite_size s.mem a v⟩
  | aluExecute op clk => exact aluExecute_keepsListAndCapacity op clk s
  | tick clk => exact tick_keepsListAndCapacity clk s
  | lockstepTick clk reqA reqB => exact lockstepTick_keepsListAndCapacity clk reqA reqB s
  | memRead | pcUpdate | pcSet | pcGet | pcRead | aluLoadA | aluLoadB | aluGetResult | aluGetRegA | aluGetRegB =>
    exact ⟨_, rfl, rfl, rfl⟩

/-- A step takes one operation off the list and keeps the capacity. -/
theorem step_script_size (s : State) :
    ∃ t, step s = .next t ∧ t.script = s.script.tail ∧ t.mem.size = s.mem.size := by
  cases h : s.script with
  | nil => exact ⟨s, step_nil h, h, rfl⟩
  | cons op rest =>
    obtain ⟨t, ht, hscript, hsize⟩ := invoke_keepsListAndCapacity op (beginOp rest s)
    exact ⟨t, (step_cons h).trans ht, hscript, hsize⟩

/-- Settles O40: the first operation is the one performed, and no operation touches the list or the capacity. -/
theorem stepConsumesOneOperation : Obligations.StepConsumesOneOperation := fun s =>
  ⟨step_nil, fun _ _ => step_cons, step_script_size s⟩

end Sys2Proof.Machine

namespace Sys2Proof.Machine

/-! ### Every step keeps the invariant -/

/-- An execution loads registers, which leaves their cells agreeing, and writes at most one byte. -/
theorem ExecEffect.inv {s t : State} (h : ExecEffect s t) (hs : Inv s) : Inv t := by
  obtain ⟨ha, hb, _, hm⟩ := hs
  refine ⟨?_, ?_, ?_, ?_⟩
  · rcases h.a with hta | ⟨d, hta⟩ <;> rw [hta]
    · exact ha
    · exact regLoad_coherent s.a d s.execClk
  · rw [h.b]; exact hb
  · obtain ⟨d, htr⟩ := h.r
    rw [htr]; exact regLoad_coherent s.r d s.execClk
  · rcases h.mem with htm | ⟨_, _, htm⟩ <;> rw [htm]
    · exact hm
    · exact memWrite_wf hm (effectiveAddress s) (storeData s)

theorem lockstepLoads_inv {s : State} (h : Inv s) (clk : Bool) (reqA reqB : Option Nibble) :
    Inv (lockstepLoads clk reqA reqB s) := by
  obtain ⟨_, _, hr, hm⟩ := h
  exact ⟨regLoad_coherent _ _ _, regLoad_coherent _ _ _, hr, hm⟩

/-- Every operation of the driver keeps the invariant. The counter and the clock operand are no part of it. -/
theorem invoke_inv {s : State} (h : Inv s) (op : DriverOp) : ∃ t, invoke op s = .next t ∧ Inv t := by
  have ⟨ha, hb, hr, hm⟩ := h
  cases op with
  | memWrite a v => exact ⟨_, rfl, ha, hb, hr, memWrite_wf hm a v⟩
  | aluLoadA d clk => exact ⟨_, rfl, regLoad_coherent s.a d clk, hb, hr, hm⟩
  | aluLoadB d clk => exact ⟨_, rfl, ha, regLoad_coherent s.b d clk, hr, hm⟩
  | aluExecute op clk =>
    obtain ⟨t, ht, he⟩ := aluExecute_effect op clk s
    exact ⟨t, ht, he.inv h⟩
  | tick clk =>
    obtain ⟨t, ht, he⟩ := tick_effect clk s
    exact ⟨t, ht, he.inv h⟩
  | lockstepTick clk reqA reqB =>
    obtain ⟨t, _, he, ht⟩ := lockstepTick_effect clk reqA reqB s
    exact ⟨_, ht, lockstepLoads_inv (he.inv h) clk reqA reqB⟩
  | memRead | pcUpdate | pcSet | pcGet | pcRead | aluGetResult | aluGetRegA | aluGetRegB =>
    exact ⟨_, rfl, h⟩

/-- Settles O49: the operation a step performs keeps the invariant, and the idle step keeps the state. -/
theorem stepKeepsInvariant : Obligations.StepKeepsInvariant := by
  intro s h
  cases hs : s.script with
  | nil => exact ⟨s, step_nil hs, h⟩
  | cons op rest =>
    have hbegin : Inv (beginOp rest s) := h
    obtain ⟨t, ht, hinv⟩ := invoke_inv hbegin op
    exact ⟨t, (step_cons hs).trans ht, hinv⟩

/-! ### Construction -/

theorem construct_inv {p : Params} (h : p.wf = true) : Inv (State.construct p) :=
  ⟨fresh_sampled.coherent, fresh_sampled.coherent, fresh_sampled.coherent, Memory.fresh_wf h⟩

/-- Settles O48: reset is the construction with the default parameters, which pass the check. -/
theorem invariantHoldsAtReset : Obligations.InvariantHoldsAtReset :=
  ⟨construct_inv (by decide), fun _ => construct_inv⟩

@[simp] theorem regOutput_fresh (n : Nat) : regOutput (Reg.fresh n) = 0#n := by
  apply BitVec.eq_of_getElem_eq
  intro i hi
  simp [Reg.fresh, BitCell.fresh]

theorem imageByte_cons (j : Nat) (v : Byte) (l : List Host.Cell) (k : Nat) :
    imageByte ((j, v) :: l) k = if k = j then v else imageByte l k := by
  by_cases h : k = j
  · simp [imageByte, h]
  · simp [imageByte, h, Ne.symm h]

/-- Dropping the zero bytes of an image, one entry at a time. -/
theorem filter_nonzero_cons (j : Nat) (v : Byte) (l : List Host.Cell) :
    (((j, v) :: l).filter fun c => c.2 != 0#8) = consCell j v (l.filter fun c => c.2 != 0#8) := by
  by_cases hv : v = 0#8 <;> simp [consCell, hv]

/-- The canonical list of an image lists for each location the byte the image gives it. -/
theorem listed_filter_nonzero {hi : Nat} (k : Nat) :
    ∀ {lo : Nat} {l : List Host.Cell}, cellsRising lo hi l = true →
      listed (l.filter fun c => c.2 != 0#8) k = imageByte l k
  | _, [], _ => rfl
  | _, (j, v) :: l, hl => by
    simp only [cellsRising, Bool.and_eq_true] at hl
    obtain ⟨_, hl⟩ := hl
    rw [filter_nonzero_cons, listed_consCell (filter_rising hl), imageByte_cons, listed_filter_nonzero k hl]

/-- A constructed memory reads as its image in range, and 0 beyond (R25, R29). -/
theorem memRead_fresh {p : Params} (h : p.wf = true) (a : Addr) :
    memRead (Memory.fresh p) a = if a.toNat < p.memSize then imageByte p.memInit a.toNat else 0#8 := by
  simp only [Params.wf, Bool.and_eq_true] at h
  obtain ⟨_, hrising⟩ := h
  simp only [memRead, inRange_iff, Memory.fresh, listed_filter_nonzero a.toNat hrising]

/-- Settles O47: every register and the counter are fresh, and the memory reads as its image. -/
theorem constructionGivesResetValues : Obligations.ConstructionGivesResetValues :=
  ⟨rfl, fun _ hp => ⟨fresh_sampled, fresh_sampled, fresh_sampled, regOutput_fresh 4, regOutput_fresh 4,
    regOutput_fresh 4, rfl, rfl, memRead_fresh hp⟩⟩

/-! ### Who writes B and the counter -/

@[simp] theorem lockstepLoads_b (clk : Bool) (reqA reqB : Option Nibble) (s : State) :
    (lockstepLoads clk reqA reqB s).b = regLoad s.b (reqB.getD (regOutput s.b)) clk := rfl

@[simp] theorem lockstepLoads_pc (clk : Bool) (reqA reqB : Option Nibble) (s : State) :
    (lockstepLoads clk reqA reqB s).pc = s.pc := rfl

/-- Settles O53: no execution touches B or the counter, so a tick leaves B and moves the counter by its own update,
and a lock-step tick adds its load of B. -/
theorem onlyTheDriverWritesBAndCounter : Obligations.OnlyTheDriverWritesBAndCounter := by
  intro op s
  cases op with
  | aluExecute op clk =>
    obtain ⟨t, ht, he⟩ := aluExecute_effect op clk s
    exact ⟨t, ht, he.b, he.pc⟩
  | tick clk =>
    obtain ⟨t, ht, he⟩ := tick_effect clk s
    exact ⟨t, ht, he.b, he.pc⟩
  | lockstepTick clk reqA reqB =>
    obtain ⟨t, _, he, ht⟩ := lockstepTick_effect clk reqA reqB s
    have hb : t.b = s.b := he.b
    exact ⟨_, ht, by rw [lockstepLoads_b, hb], he.pc⟩
  | memRead | memWrite | pcUpdate | pcSet | pcGet | pcRead | aluLoadA | aluLoadB | aluGetResult | aluGetRegA
  | aluGetRegB => exact ⟨_, rfl, rfl, rfl⟩

/-! ### The field `execClk` holds no history -/

section ExecuteClock

variable (s : State) (c clk : Bool)

/-- Every execution writes its own clock operand before anything reads it. -/
@[simp] theorem aluExecute_setExecClk (op : Byte) : aluExecute op clk (s.setExecClk c) = aluExecute op clk s := rfl

@[simp] theorem tick_setExecClk : tick clk (s.setExecClk c) = tick clk s := rfl

@[simp] theorem lockstepTick_setExecClk (reqA reqB : Option Nibble) :
    lockstepTick clk reqA reqB (s.setExecClk c) = lockstepTick clk reqA reqB s := by
  simp only [lockstepTick, tick_setExecClk]

/-- An operation started with another `execClk` answers the same state where it executes, and elsewhere one that
differs in this field only. -/
theorem invoke_setExecClk (op : DriverOp) :
    invoke op (s.setExecClk c) = invoke op s ∨
    ∃ t, invoke op s = .next t ∧ invoke op (s.setExecClk c) = .next (t.setExecClk c) := by
  cases op with
  | aluExecute op clk => exact .inl (aluExecute_setExecClk s c clk op)
  | tick clk => exact .inl (tick_setExecClk s c clk)
  | lockstepTick clk reqA reqB => exact .inl (lockstepTick_setExecClk s c clk reqA reqB)
  | memRead | memWrite | pcUpdate | pcSet | pcGet | pcRead | aluLoadA | aluLoadB | aluGetResult | aluGetRegA
  | aluGetRegB => exact .inr ⟨_, rfl, rfl⟩

theorem step_setExecClk :
    step (s.setExecClk c) = step s ∨
    ∃ t, step s = .next t ∧ step (s.setExecClk c) = .next (t.setExecClk c) := by
  cases h : s.script with
  | nil => exact .inr ⟨s, step_nil h, step_nil h⟩
  | cons op rest =>
    have h' : (s.setExecClk c).script = op :: rest := h
    rw [step_cons h, step_cons h']
    exact invoke_setExecClk (beginOp rest s) c op

end ExecuteClock

/-- Settles O54: the two steps answer one state, or two that differ in `execClk` only. -/
theorem executeClockIsNoHistory : Obligations.ExecuteClockIsNoHistory := by
  intro s c
  rcases step_setExecClk s c with h | ⟨t, ht, ht'⟩
  · obtain ⟨t, ht, _⟩ := step_script_size s
    exact ⟨t, t, ht, h.trans ht, ⟨rfl, rfl, rfl, rfl, rfl⟩, rfl, rfl⟩
  · exact ⟨t, _, ht, ht', ⟨rfl, rfl, rfl, rfl, rfl⟩, rfl, rfl⟩

/-! ### The hidden previous clock -/

section Armed

variable {n : Nat} [NeZero n] {x : Reg n}

/-- An armed register takes the data it is offered with clock 1. -/
theorem regOutput_regLoad_armed (h : x.Sampled false) (d : BitVec n) : regOutput (regLoad x d true) = d := by
  rw [regOutput_regLoad h.coherent, if_pos ⟨rfl, h.pclk_eq⟩]

/-- A register whose cells saw clock 1 last keeps its value. -/
theorem regOutput_regLoad_heldHigh (h : x.Sampled true) (d : BitVec n) (clk : Bool) :
    regOutput (regLoad x d clk) = regOutput x := by
  simp [regOutput_regLoad h.coherent, h.pclk_eq]

end Armed

/-- Settles O55: the armed A shows the data, the other still shows the common old value, which differs from it. -/
theorem hiddenPreviousClockDecides : Obligations.HiddenPreviousClockDecides := by
  intro s s' d hsame harmed hheld hd
  have htaken : regOutput (aluLoadA d true s).a = d := regOutput_regLoad_armed harmed d
  have hkept : regOutput (aluLoadA d true s').a = regOutput s.a :=
    (regOutput_regLoad_heldHigh hheld d true).trans hsame.symm
  exact ⟨_, _, rfl, rfl, htaken, hkept, by rw [htaken, hkept]; exact hd⟩

end Sys2Proof.Machine

namespace Sys2Proof.Machine

/-! ### Reads of a canonical memory -/

/-- A canonical memory is the one constructed from its own list of cells, which holds no zero byte to drop. -/
theorem Memory.fresh_self {m : Memory} (h : m.wf = true) :
    Memory.fresh { memSize := m.size, memInit := m.cells } = m := by
  obtain ⟨_, _, hnonzero⟩ := m.wf_iff.1 h
  have hcells : (m.cells.filter fun c => c.2 != 0#8) = m.cells :=
    List.filter_eq_self.2 (List.all_eq_true.1 hnonzero)
  simp only [Memory.fresh, hcells]

theorem Memory.image_wf {m : Memory} (h : m.wf = true) :
    Params.wf { memSize := m.size, memInit := m.cells } = true := by
  obtain ⟨hsize, hrising, _⟩ := m.wf_iff.1 h
  simp [Params.wf, hsize, hrising]

/-- R29: so a read finds the byte listed for its address in range, and 0 beyond. -/
theorem memRead_eq_imageByte {m : Memory} (h : m.wf = true) (a : Addr) :
    memRead m a = if a.toNat < m.size then imageByte m.cells a.toNat else 0#8 := by
  simpa only [Memory.fresh_self h] using memRead_fresh (Memory.image_wf h) a

/-- Settles O11: the reply is the read of a canonical memory, and no other field is set. -/
theorem memReadReturnsStoredByteOrZero : Obligations.MemReadReturnsStoredByteOrZero := by
  intro s a h
  refine ⟨_, rfl, ?_, ⟨rfl, rfl, rfl, rfl, rfl⟩, rfl, rfl⟩
  rw [State.setReply_reply, memRead_eq_imageByte h]

/-! ### Writes, and reads after them -/

theorem memRead_of_size_le {m : Memory} {a : Addr} (h : m.size ≤ a.toNat) : memRead m a = 0#8 := by
  rw [memRead, if_neg (mt (inRange_iff m a).1 (by omega))]

theorem memWrite_of_size_le {m : Memory} {a : Addr} (h : m.size ≤ a.toNat) (v : Byte) : memWrite m a v = m := by
  rw [memWrite, if_neg (mt (inRange_iff m a).1 (by omega))]

theorem memRead_memWrite_same {m : Memory} (h : m.wf = true) {a : Addr} (ha : a.toNat < m.size) (v : Byte) :
    memRead (memWrite m a v) a = v := by
  rw [memRead_memWrite h, if_pos ⟨rfl, ha⟩]

theorem memRead_memWrite_of_ne {m : Memory} (h : m.wf = true) {a x : Addr} (hx : x ≠ a) (v : Byte) :
    memRead (memWrite m a v) x = memRead m x := by
  rw [memRead_memWrite h, if_neg fun ⟨e, _⟩ => hx e]

/-- Settles O12: the read-after-write rules in range, the write without effect out of range. -/
theorem memWriteStoresOneByteInRange : Obligations.MemWriteStoresOneByteInRange := fun s a v h =>
  ⟨_, rfl, memWrite_size s.mem a v, fun ha => memRead_memWrite_same h ha v,
    fun _ hx => memRead_memWrite_of_ne h hx v, fun ha => memWrite_of_size_le ha v,
    rfl, rfl, rfl, rfl, rfl, rfl, rfl⟩

/-- Settles O13, by induction on the list: the first write changes the byte the rest start from. -/
theorem readReturnsLatestWrite : Obligations.ReadReturnsLatestWrite := by
  intro m ws a h
  induction ws generalizing m with
  | nil =>
    split
    · rfl
    · next ha => exact memRead_of_size_le (Nat.le_of_not_lt ha)
  | cons write ws ih =>
    obtain ⟨x, v⟩ := write
    rw [List.foldl_cons, ih _ (memWrite_wf h x v), memWrite_size]
    split
    · next ha =>
      have hfirst : memRead (memWrite m x v) a = if x = a then v else memRead m a := by
        by_cases hx : x = a
        · rw [if_pos hx, hx, memRead_memWrite_same h ha]
        · rw [if_neg hx, memRead_memWrite_of_ne h (Ne.symm hx)]
      rw [hfirst, latestWrite]
    · rfl

/-! ### The canonical form is unique -/

section Canonical

variable {lo lo' hi hi' j j' : Nat} {v v' : Byte} {l l' : List Host.Cell}

theorem listed_head : listed ((j, v) :: l) j = v := by simp [listed]

/-- Above the head's key the rest of the list decides. -/
theorem listed_tail {k : Nat} (h : j < k) : listed ((j, v) :: l) k = listed l k := by
  simp [listed, show ¬ k < j by omega, show k ≠ j by omega]

/-- A rising list may start at its first key, and the rest starts above it. -/
theorem cellsRising_cons (h : cellsRising lo hi ((j, v) :: l) = true) :
    cellsRising j hi ((j, v) :: l) = true ∧ cellsRising (j + 1) hi l = true := by
  simp only [cellsRising, Bool.and_eq_true, decide_eq_true_eq] at h ⊢
  obtain ⟨⟨_, hhi⟩, htail⟩ := h
  exact ⟨⟨⟨le_rfl, hhi⟩, htail⟩, htail⟩

/-- The first key of a list, where its byte is not zero, is no lower than the start of a rising list that reads alike:
below that start only zeros are read. -/
theorem start_le_head_of_listed_eq (hv : v ≠ 0#8) (hl' : cellsRising lo' hi' l' = true)
    (h : ∀ k, listed ((j, v) :: l) k = listed l' k) : lo' ≤ j := by
  by_contra hlt
  have hzero : listed l' j = 0#8 := listed_below (Nat.lt_of_not_le hlt) hl'
  exact hv (by rw [← listed_head (j := j) (v := v) (l := l), h j, hzero])

/-- Rising lists above one head read alike if they do with the head. -/
theorem listed_tails_eq (hl : cellsRising (j + 1) hi l = true) (hl' : cellsRising (j + 1) hi' l' = true)
    (h : ∀ k, listed ((j, v) :: l) k = listed ((j, v) :: l') k) (k : Nat) : listed l k = listed l' k := by
  by_cases hk : j < k
  · simpa only [listed_tail hk] using h k
  · rw [listed_below (show k < j + 1 by omega) hl, listed_below (show k < j + 1 by omega) hl']

end Canonical

theorem nonzero_cons {j : Nat} {v : Byte} {l : List Host.Cell} :
    (((j, v) :: l).all fun c => c.2 != 0#8) = true ↔ v ≠ 0#8 ∧ (l.all fun c => c.2 != 0#8) = true := by
  rw [List.all_cons, Bool.and_eq_true, bne_iff_ne]

/-- Rising lists without zero bytes that read alike are equal: their heads are each other's lower bounds. -/
theorem cells_eq_of_listed_eq {hi hi' : Nat} :
    ∀ {lo lo' : Nat} {l l' : List Host.Cell}, cellsRising lo hi l = true → cellsRising lo' hi' l' = true →
      (l.all fun c => c.2 != 0#8) = true → (l'.all fun c => c.2 != 0#8) = true →
      (∀ k, listed l k = listed l' k) → l = l'
  | _, _, [], [], _, _, _, _, _ => rfl
  | _, _, [], (j, v) :: _, _, _, _, hn', h =>
    absurd ((h j).trans listed_head).symm (nonzero_cons.1 hn').1
  | _, _, (j, v) :: _, [], _, _, hn, _, h =>
    absurd (listed_head.symm.trans (h j)) (nonzero_cons.1 hn).1
  | _, _, (j, v) :: l, (j', v') :: l', hl, hl', hn, hn', h => by
    obtain ⟨hhead, htail⟩ := cellsRising_cons hl
    obtain ⟨hhead', htail'⟩ := cellsRising_cons hl'
    obtain ⟨hv, hrest⟩ := nonzero_cons.1 hn
    obtain ⟨hv', hrest'⟩ := nonzero_cons.1 hn'
    have hj : j = j' := Nat.le_antisymm (start_le_head_of_listed_eq hv' hhead fun k => (h k).symm)
      (start_le_head_of_listed_eq hv hhead' h)
    subst hj
    have hvv : v = v' := listed_head.symm.trans ((h j).trans listed_head)
    subst hvv
    rw [cells_eq_of_listed_eq htail htail' hrest hrest' (listed_tails_eq htail htail' h)]

/-- Every key is the value of an address or lies beyond the capacity, where nothing is listed. -/
theorem listed_eq_of_memRead_eq {m m' : Memory} (h : m.wf = true) (h' : m'.wf = true) (hsize : m.size = m'.size)
    (hread : ∀ a : Addr, memRead m a = memRead m' a) (k : Nat) : listed m.cells k = listed m'.cells k := by
  obtain ⟨hcap, hrising, _⟩ := m.wf_iff.1 h
  obtain ⟨_, hrising', _⟩ := m'.wf_iff.1 h'
  by_cases hk : k < m.size
  · have hcap : m.size ≤ 65536 := hcap
    have haddr : (BitVec.ofNat 16 k).toNat = k := by
      rw [BitVec.toNat_ofNat, Nat.mod_eq_of_lt (by omega)]
    simpa only [memRead, inRange, haddr, hk, hsize ▸ hk, decide_true, if_true] using hread (BitVec.ofNat 16 k)
  · rw [listed_above (by omega) hrising, listed_above (by omega) hrising']

/-- Settles O14: the two lists of cells read alike at every key, so they are one list. -/
theorem memoriesThatReadAlikeAreEqual : Obligations.MemoriesThatReadAlikeAreEqual := by
  intro m m' h h' hsize hread
  obtain ⟨_, hrising, hnonzero⟩ := m.wf_iff.1 h
  obtain ⟨_, hrising', hnonzero'⟩ := m'.wf_iff.1 h'
  have hcells : m.cells = m'.cells :=
    cells_eq_of_listed_eq hrising hrising' hnonzero hnonzero' (listed_eq_of_memRead_eq h h' hsize hread)
  cases m
  cases m'
  rw [Memory.mk.injEq]
  exact ⟨hsize, hcells⟩

/-! ### A fetch beyond memory -/

theorem aluExecute_of_decode {op : Byte} {i : Instr} (h : decode op = .ok i) (clk : Bool) (s : State) :
    aluExecute op clk s = exec i (s.setExecClk clk) := by
  rw [aluExecute, h]

/-- R42: beyond the capacity the byte fetched is 0, which is AND's. -/
theorem decode_fetch_of_size_le {s : State} (h : s.mem.size ≤ s.pc.value.toNat) : decode (fetch s) = .ok .and := by
  have hzero : fetch s = 0#8 := memRead_of_size_le h
  rw [hzero]
  rfl

/-- Settles O43: the tick updates the counter, fetches AND's byte there and executes it. -/
theorem fetchBeyondMemoryExecutesAnd : Obligations.FetchBeyondMemoryExecutesAnd := by
  intro s rest clk hscript hsize
  have hfetch : decode (fetch (clockPc clk (beginOp rest s))) = .ok .and := decode_fetch_of_size_le hsize
  calc step s = tick clk (beginOp rest s) := step_cons hscript
    _ = exec .and ((clockPc clk (beginOp rest s)).setExecClk clk) := aluExecute_of_decode hfetch clk _

/-! ### What programs can write -/

/-- The memory of `t` is that of `s`, or that of `s` with A's byte at the address in B. -/
def MemKeptOrStored (s t : State) : Prop :=
  t.mem = s.mem ∨ t.mem = memWrite s.mem (effectiveAddress s) (storeData s)

theorem ExecEffect.memKeptOrStored {s t : State} (h : ExecEffect s t) : MemKeptOrStored s t :=
  h.mem.imp_right fun ⟨_, _, hm⟩ => hm

/-- Only an execution reaches memory, except by a direct write. In a tick it reads A and B as they were before the
tick, the operand loads of a lock-step tick included (R88; log 14). -/
theorem invoke_memKeptOrStored (op : DriverOp) (s : State) (h : ∀ a v, op ≠ .memWrite a v) :
    ∃ t, invoke op s = .next t ∧ MemKeptOrStored s t := by
  cases op with
  | memWrite a v => exact absurd rfl (h a v)
  | aluExecute op clk =>
    obtain ⟨t, ht, he⟩ := aluExecute_effect op clk s
    exact ⟨t, ht, he.memKeptOrStored⟩
  | tick clk =>
    obtain ⟨t, ht, he⟩ := tick_effect clk s
    exact ⟨t, ht, he.memKeptOrStored⟩
  | lockstepTick clk reqA reqB =>
    obtain ⟨t, _, he, ht⟩ := lockstepTick_effect clk reqA reqB s
    exact ⟨_, ht, he.memKeptOrStored⟩
  | memRead | pcUpdate | pcSet | pcGet | pcRead | aluLoadA | aluLoadB | aluGetResult | aluGetRegA | aluGetRegB =>
    exact ⟨_, rfl, .inl rfl⟩

theorem step_memKeptOrStored {s : State} (h : ∀ a v rest, s.script ≠ .memWrite a v :: rest) :
    ∃ t, step s = .next t ∧ MemKeptOrStored s t := by
  cases hscript : s.script with
  | nil => exact ⟨s, step_nil hscript, .inl rfl⟩
  | cons op rest =>
    have hop : ∀ a v, op ≠ .memWrite a v := fun a v e => h a v rest (e ▸ hscript)
    obtain ⟨t, ht, hmem⟩ := invoke_memKeptOrStored op (beginOp rest s) hop
    exact ⟨t, (step_cons hscript).trans ht, hmem⟩

/-- Settles O52: such a step keeps the memory or stores A, which is below 16, at the address in B, which is too. -/
theorem programsWriteOnlyLowNibblesBelow16 : Obligations.ProgramsWriteOnlyLowNibblesBelow16 := by
  intro s hwf hscript
  obtain ⟨t, ht, hmem⟩ := step_memKeptOrStored hscript
  refine ⟨t, ht, effectiveAddress_lt s, ?_⟩
  rcases hmem with hmem | hmem <;> rw [hmem]
  · exact ⟨fun _ _ => rfl, .inl rfl⟩
  · refine ⟨fun x hx => memRead_memWrite_of_ne hwf hx (storeData s), ?_⟩
    rw [memRead_memWrite hwf]
    split
    · exact .inr (storeData_lt s)
    · exact .inl rfl

/-! ### A stored byte is fetched -/

/-- STORE sets the memory by its memory action and leaves the counter. -/
theorem exec_store_mem_pc (s : State) :
    ∃ t, exec .store s = .next t ∧ t.mem = (storeAction s).mem ∧ t.pc = s.pc :=
  ⟨_, rfl, rfl, storeAction_pc s⟩

/-- Settles O56: the counter holds the address in B, where R's edge lets A be written. -/
theorem storedByteIsFetchedNext : Obligations.StoredByteIsFetchedNext := by
  intro s hwf hclk harmed hpc hrange
  obtain ⟨t, ht, hmem, htpc⟩ := exec_store_mem_pc s
  have haddr : s.pc.value = effectiveAddress s := by
    apply BitVec.eq_of_toNat_eq
    have hb := (regOutput s.b).isLt
    rw [hpc, effectiveAddress_eq, BitVec.toNat_setWidth]
    omega
  have hread : pcRead t.pc t.mem = storeData s := by
    rw [pcRead, hmem, storeAction_mem, if_pos ⟨hclk, harmed.pclk_eq⟩, htpc, haddr]
    exact memRead_memWrite_same hwf (haddr ▸ hrange) (storeData s)
  exact ⟨t, _, ht, rfl, by rw [State.setReply_reply, hread, storeData_eq]⟩

end Sys2Proof.Machine

namespace Sys2Proof

/-! ### The opcode map and its inverse -/

theorem decode_encode (i : Instr) : decode (encode i) = .ok i := by
  cases i <;> rfl

/-- R46: a byte of no instruction passes all six tests of the decoder. -/
theorem decode_of_ne_encode {op : Byte} (h : ∀ i, op ≠ encode i) : decode op = .error (.unknownOpcode op) := by
  calc decode op = _ := if_neg (h .and)
    _ = _ := if_neg (h .or)
    _ = _ := if_neg (h .xor)
    _ = _ := if_neg (h .add)
    _ = _ := if_neg (h .load)
    _ = .error (.unknownOpcode op) := if_neg (h .store)

theorem decode_eq_ok_iff {op : Byte} {i : Instr} : decode op = .ok i ↔ encode i = op := by
  constructor
  · intro h
    by_cases hop : ∃ j, op = encode j
    · obtain ⟨j, rfl⟩ := hop
      rw [decode_encode] at h
      rw [Except.ok.inj h]
    · have herr := decode_of_ne_encode (not_exists.1 hop)
      exact nomatch herr.symm.trans h
  · rintro rfl
    exact decode_encode i

/-! ### Words of the opcode table -/

/-- R43: the eight bits of a byte, as the table numbers them, stand for that byte. -/
@[simp] theorem tableByte_toNat (op : Byte) : tableByte 8 op.toNat = some op := by
  simp [tableByte, op.isLt]

theorem decodeTableWord_encode (i : Instr) : decodeTableWord 8 (encode i).toNat = some i := by
  simp only [decodeTableWord, tableByte_toNat, decode_encode]

/-- Settles O35: decoding to an instruction is being its byte, and the table's word of a byte stands for it. -/
theorem decodeAndEncodeAgree : Obligations.DecodeAndEncodeAgree :=
  ⟨fun i => ⟨decode_encode i, decodeTableWord_encode i⟩, fun _ _ => decode_eq_ok_iff.1⟩

/-! ### The bytes below 6 are the opcodes -/

theorem encode_toNat_lt (i : Instr) : (encode i).toNat < 6 := by
  cases i with
  | and => exact Laws.OneByte.and.2
  | or => exact Laws.OneByte.or.2
  | xor => exact Laws.OneByte.xor.2
  | add => exact Laws.OneByte.add.2
  | load => exact Laws.OneByte.load.2
  | store => exact Laws.OneByte.store.2

theorem exists_encode_eq_of_lt {op : Byte} (h : op.toNat < 6) : ∃ i, encode i = op := by
  have hop : op = 0#8 ∨ op = 1#8 ∨ op = 2#8 ∨ op = 3#8 ∨ op = 4#8 ∨ op = 5#8 := by bv_omega
  rcases hop with rfl | rfl | rfl | rfl | rfl | rfl
  · exact ⟨.and, rfl⟩
  · exact ⟨.or, rfl⟩
  · exact ⟨.xor, rfl⟩
  · exact ⟨.add, rfl⟩
  · exact ⟨.load, rfl⟩
  · exact ⟨.store, rfl⟩

theorem decode_of_six_le {op : Byte} (h : 6 ≤ op.toNat) : decode op = .error (.unknownOpcode op) := by
  apply decode_of_ne_encode
  rintro i rfl
  exact Nat.not_lt.2 h (encode_toNat_lt i)

/-- Settles O36: every opcode is below 6, and every byte below 6 is an opcode. -/
theorem unknownOpcodesAreSixAndAbove : Obligations.UnknownOpcodesAreSixAndAbove := fun _ =>
  ⟨decode_of_six_le, fun h => (exists_encode_eq_of_lt h).imp fun _ => decode_eq_ok_iff.2⟩

/-- Settles O34: three opcodes, the first unknown byte, and the table's word of LOAD. -/
theorem opcodeMapSamples : Obligations.OpcodeMapSamples :=
  ⟨decode_encode .and, decode_encode .add, decode_encode .store, decode_of_six_le (by decide),
    decodeTableWord_encode .load⟩

end Sys2Proof

namespace Sys2Proof.Machine

/-! ### The gates -/

@[simp] theorem gateAnd_eq (a b : Bool) : gateAnd a b = (a && b) := by
  cases a <;> cases b <;> rfl

@[simp] theorem gateOr_eq (a b : Bool) : gateOr a b = (a || b) := by
  cases a <;> cases b <;> rfl

@[simp] theorem gateXor_eq (a b : Bool) : gateXor a b = xor a b := by
  cases a <;> cases b <;> rfl

@[simp] theorem gateNot_eq (a : Bool) : gateNot a = !a := by
  cases a <;> rfl

/-- NAND is NOT of AND. -/
theorem gateNand_eq (a b : Bool) : gateNand a b = !(a && b) := by
  rw [gateNand, gateNot_eq, gateAnd_eq]

/-- Settles O1: one truth table each. -/
theorem gatesAreTheBooleanConnectives : Obligations.GatesAreTheBooleanConnectives := fun a b =>
  ⟨gateAnd_eq a b, gateOr_eq a b, gateXor_eq a b, gateNot_eq a, gateNand_eq a b⟩

/-- Settles O5: the four-bit gates are the bit vectors' own connectives. -/
theorem bitwiseGatesActPerPosition : Obligations.BitwiseGatesActPerPosition := by
  refine ⟨fun a b i => ?_, rfl, rfl, rfl⟩
  rw [and4_eq, or4_eq, xor4_eq]
  exact ⟨BitVec.getElem_and i.isLt, BitVec.getElem_or i.isLt, BitVec.getElem_xor i.isLt⟩

/-! ### The adders -/

/-- Settles O2: its two gates are XOR and AND. -/
theorem halfAdderIsXorAndAnd : Obligations.HalfAdderIsXorAndAnd := fun a b => by
  rw [halfAdder, gateXor_eq, gateAnd_eq]

theorem fullAdder_eq (a b cin : Bool) :
    fullAdder a b cin = (xor (xor a b) cin, (a && b) || (xor a b && cin)) := by
  simp only [fullAdder, gateAnd_eq, gateOr_eq, gateXor_eq]

/-- R53: the two outputs of a full adder, by weight, are the sum of its inputs. -/
theorem fullAdder_toNat (a b cin : Bool) :
    (fullAdder a b cin).1.toNat + 2 * (fullAdder a b cin).2.toNat = a.toNat + b.toNat + cin.toNat := by
  rw [fullAdder_eq]
  cases a <;> cases b <;> cases cin <;> rfl

/-- Settles O3: the formulas, and the weighted sum of the outputs. -/
theorem fullAdderAddsThreeBits : Obligations.FullAdderAddsThreeBits := fun a b cin =>
  ⟨fullAdder_eq a b cin, fullAdder_toNat a b cin⟩

/-- R16: the number of a nibble, its bits by weight. -/
theorem toNat_eq_sum_bits : ∀ d : Nibble,
    d.toNat = d[0].toNat + 2 * d[1].toNat + 4 * d[2].toNat + 8 * d[3].toNat := by
  decide

theorem nibbleOfBits_toNat : ∀ b0 b1 b2 b3 : Bool,
    (nibbleOfBits b0 b1 b2 b3).toNat = b0.toNat + 2 * b1.toNat + 4 * b2.toNat + 8 * b3.toNat := by
  decide

/-- R54: the sum and the carry of weight 16 together are the exact sum; each inner carry leaves one full adder and
enters the next, so that in the weighted sum of the four it cancels. -/
theorem add4_toNat (a b : Nibble) : (add4 a b).1.toNat + 16 * (add4 a b).2.toNat = a.toNat + b.toNat := by
  unfold add4
  extract_lets s0 s1 s2 s3
  have h0 : s0.1.toNat + 2 * s0.2.toNat = a[0].toNat + b[0].toNat + 0 := fullAdder_toNat a[0] b[0] false
  have h1 : s1.1.toNat + 2 * s1.2.toNat = a[1].toNat + b[1].toNat + s0.2.toNat := fullAdder_toNat a[1] b[1] s0.2
  have h2 : s2.1.toNat + 2 * s2.2.toNat = a[2].toNat + b[2].toNat + s1.2.toNat := fullAdder_toNat a[2] b[2] s1.2
  have h3 : s3.1.toNat + 2 * s3.2.toNat = a[3].toNat + b[3].toNat + s2.2.toNat := fullAdder_toNat a[3] b[3] s2.2
  show (nibbleOfBits s0.1 s1.1 s2.1 s3.1).toNat + 16 * s3.2.toNat = a.toNat + b.toNat
  rw [nibbleOfBits_toNat, toNat_eq_sum_bits a, toNat_eq_sum_bits b]
  omega

/-- Settles O4: the sum is below 16, so the exact sum has it as remainder and the carry as quotient. -/
theorem rippleAdderIsAddition : Obligations.RippleAdderIsAddition := by
  intro a b
  have hsum := add4_toNat a b
  have hlt := (add4 a b).1.isLt
  cases hcarry : (add4 a b).2 with
  | false =>
    have hexact : (add4 a b).1.toNat = a.toNat + b.toNat := by simpa [hcarry] using hsum
    exact ⟨by omega, iff_of_false Bool.false_ne_true (by omega)⟩
  | true =>
    have hexact : (add4 a b).1.toNat + 16 = a.toNat + b.toNat := by simpa [hcarry] using hsum
    exact ⟨by omega, iff_of_true rfl (by omega)⟩

/-! ### The conversions -/

@[simp] theorem toBits_toNat (v : Byte) : (toBits v).toNat = v.toNat % 16 := BitVec.toNat_setWidth 4 v

@[simp] theorem fromBits_toNat (d : Nibble) : (fromBits d).toNat = d.toNat :=
  BitVec.toNat_setWidth_of_le (by decide)

theorem toBits_getLsbD (v : Byte) {i : Nat} (h : i < 4) : (toBits v).getLsbD i = v.getLsbD i := by
  simp [toBits, h]

@[simp] theorem toBits_fromBits (d : Nibble) : toBits (fromBits d) = d := by
  apply BitVec.eq_of_toNat_eq
  rw [toBits_toNat, fromBits_toNat, Nat.mod_eq_of_lt d.isLt]

/-- Settles O6: `to_bits` is the number modulo 16, and `from_bits` keeps the number. -/
theorem conversionsKeepLowFourBits : Obligations.ConversionsKeepLowFourBits :=
  ⟨fun v => ⟨toBits_toNat v, (fromBits_toNat (toBits v)).trans (toBits_toNat v), fun _ => toBits_getLsbD v⟩,
    fun d => ⟨toBits_fromBits d, (fromBits_toNat d).trans (toNat_eq_sum_bits d)⟩⟩

/-! ### The bit cell over time -/

/-- R58: the data bit follows the edge the cell sees, and the clock is recorded. -/
theorem cellUpdate_eq (c : BitCell) (d clk : Bool) : cellUpdate c d clk =
    if clk = true ∧ c.pclk = false then { q := d, pclk := clk } else { q := c.q, pclk := clk } := by
  cases clk <;> cases h : c.pclk <;> simp [cellUpdate, risingEdge, h]

@[simp] theorem cellUpdate_pclk (c : BitCell) (d clk : Bool) : (cellUpdate c d clk).pclk = clk := rfl

/-- An event with clock 1 leaves a cell whose last event had clock 1 as it is. -/
theorem cellUpdate_heldHigh {c : BitCell} (h : c.pclk = true) (d : Bool) : cellUpdate c d true = c := by
  rw [cellUpdate_eq, if_neg (by simp [h]), ← h]

theorem foldl_cellUpdate_heldHigh {c : BitCell} (h : c.pclk = true) (ds : List Bool) :
    ds.foldl (fun x d => cellUpdate x d true) c = c := by
  induction ds with
  | nil => rfl
  | cons d ds ih => rw [List.foldl_cons, cellUpdate_heldHigh h, ih]

theorem cellOutput_cellUpdate_armed {c : BitCell} (h : c.pclk = false) (d : Bool) :
    cellOutput (cellUpdate c d true) = d := by
  rw [cellUpdate_eq, if_pos ⟨rfl, h⟩, cellOutput]

/-- Settles O8: the first event leaves the clock high, so the held events change nothing; the low event arms. -/
theorem cellHeldHighKeepsDataUntilRearmed : Obligations.CellHeldHighKeepsDataUntilRearmed := by
  intro c first ds low last held
  have hheld : held = cellUpdate c first true := foldl_cellUpdate_heldHigh (cellUpdate_pclk c first true) ds
  exact ⟨congrArg cellOutput hheld, cellOutput_cellUpdate_armed (cellUpdate_pclk held low false) last⟩

/-- Settles O7: the rule of the cell's update, for every cell and clock. -/
theorem cellTakesDataOnRisingEdgeOnly : Obligations.CellTakesDataOnRisingEdgeOnly := cellUpdate_eq

/-! ### The register -/

/-- Settles O9: the parallel load is one update for each cell; the cells of a coherent register see one edge. -/
theorem registerLoadIsParallelAndEdgeGated : Obligations.RegisterLoadIsParallelAndEdgeGated :=
  fun _ _ x d clk => ⟨fun i => regLoad_cell x d clk i i.isLt,
    fun hx => ⟨regLoad_loaded hx d clk, regLoad_coherent x d clk, regLoad_pclk x d clk⟩⟩

/-- Settles O10: the number of four cells is that of the output's bits. -/
theorem registerOutputIsItsCells : Obligations.RegisterOutputIsItsCells := by
  refine ⟨fun _ x i => regOutput_bit x i i.isLt, fun x => ?_⟩
  simp only [toNat_eq_sum_bits (regOutput x), regOutput_bit]

/-! ### Reads -/

/-- An operation that sets the reply alone, to a value which no earlier reply changes, may be repeated. -/
theorem invoke_twice_of_reply {op : DriverOp} {s : State} {v : Reply}
    (h : ∀ earlier, invoke op (s.setReply earlier) = .next (s.setReply (some v))) :
    ∃ t u, invoke op s = .next t ∧ invoke op t = .next u ∧ u.reply = t.reply ∧ t.reply ≠ none ∧
      SameBlock s t ∧ SameBlock s u :=
  ⟨_, _, h s.reply, h (some v), rfl, Option.some_ne_none v, ⟨rfl, rfl, rfl, rfl, rfl⟩, rfl, rfl, rfl, rfl, rfl⟩

/-- Settles O57: each read's value comes from the block, and only the reply is set. -/
theorem readsAreIdempotent : Obligations.ReadsAreIdempotent := by
  intro op s hread
  cases op with
  | memRead a => exact invoke_twice_of_reply (v := .byte (memRead s.mem a)) fun _ => rfl
  | pcGet => exact invoke_twice_of_reply (v := .address (pcGet s.pc)) fun _ => rfl
  | pcRead => exact invoke_twice_of_reply (v := .byte (pcRead s.pc s.mem)) fun _ => rfl
  | aluGetResult => exact invoke_twice_of_reply (v := .nibble (aluGetResult s)) fun _ => rfl
  | aluGetRegA => exact invoke_twice_of_reply (v := .nibble (aluGetRegA s)) fun _ => rfl
  | aluGetRegB => exact invoke_twice_of_reply (v := .nibble (aluGetRegB s)) fun _ => rfl
  | memWrite | pcUpdate | pcSet | aluLoadA | aluLoadB | aluExecute | tick | lockstepTick => nomatch hread

end Sys2Proof.Machine

namespace Sys2Proof.Machine

/-! ### The program counter's operations -/

/-- R65: on a rising edge the counter's number moves by one and wraps; otherwise it stays. -/
theorem pcUpdate_value_toNat (p : ProgramCounter) (clk : Bool) :
    (pcUpdate p clk).value.toNat =
      if clk = true ∧ p.pclk = false then (p.value.toNat + 1) % 65536 else p.value.toNat := by
  rw [pcUpdate_value]
  split
  · exact BitVec.toNat_add p.value 1#16
  · rfl

theorem pcUpdate_value_armed {p : ProgramCounter} (h : p.pclk = false) :
    (pcUpdate p true).value = p.value + 1#16 := by
  rw [pcUpdate_value, if_pos ⟨rfl, h⟩]

@[simp] theorem pcSet_value (p : ProgramCounter) (a : Addr) : (pcSet p a).value = a := rfl

@[simp] theorem pcSet_pclk (p : ProgramCounter) (a : Addr) : (pcSet p a).pclk = p.pclk := rfl

/-- Settles O15: the operation sets the counter alone, by its update. -/
theorem pcUpdateCountsRisingEdge : Obligations.PcUpdateCountsRisingEdge := fun s clk =>
  ⟨_, rfl, pcUpdate_value_toNat s.pc clk, pcUpdate_pclk s.pc clk, rfl, rfl, rfl, rfl, rfl, rfl, rfl⟩

/-- Settles O16: the operation sets the counter alone, and in it the value. -/
theorem pcSetOverwritesValueOnly : Obligations.PcSetOverwritesValueOnly := fun s a =>
  ⟨_, rfl, pcSet_value s.pc a, pcSet_pclk s.pc a, rfl, rfl, rfl, rfl, rfl, rfl, rfl⟩

/-- R68: the counter's read is 0 where its address is beyond the capacity. -/
theorem pcRead_of_size_le {p : ProgramCounter} {m : Memory} (h : m.size ≤ p.value.toNat) : pcRead p m = 0#8 :=
  memRead_of_size_le h

/-- Settles O17: each of the two reads sets the reply alone. -/
theorem pcReadsArePure : Obligations.PcReadsArePure := by
  intro s
  constructor
  · exact ⟨_, rfl, rfl, ⟨rfl, rfl, rfl, rfl, rfl⟩, rfl, rfl⟩
  · refine ⟨_, rfl, rfl, fun hsize => ?_, ⟨rfl, rfl, rfl, rfl, rfl⟩, rfl, rfl⟩
    rw [State.setReply_reply, pcRead_of_size_le hsize]

/-- Settles O19: a set keeps the counter armed, so the update after it counts from the address set; a set after the
update discards the count. -/
theorem pcSetAndUpdateDoNotCommute : Obligations.PcSetAndUpdateDoNotCommute := by
  intro p a harmed
  have hset : (pcSet p a).pclk = false := (pcSet_pclk p a).trans harmed
  exact ⟨pcUpdate_value_armed hset, pcSet_value (pcUpdate p true) a⟩

end Sys2Proof.Machine

namespace Sys2Proof.Machine

/-! ### The operand loads and the reads -/

theorem SameMemory.of_mem_eq {s t : State} (h : t.mem = s.mem) : SameMemory s t := by
  rw [SameMemory, h]
  exact ⟨rfl, fun _ => rfl⟩

/-- Settles O20: the operation sets A alone, by its load. -/
theorem aluLoadALoadsOnlyA : Obligations.AluLoadALoadsOnlyA := fun _ d clk ha =>
  ⟨_, rfl, regLoad_loaded ha d clk, rfl, rfl, rfl, .of_mem_eq rfl, rfl, rfl, rfl⟩

/-- Settles O21: the operation sets B alone, by its load, and no execution touches B. -/
theorem aluLoadBLoadsOnlyB : Obligations.AluLoadBLoadsOnlyB := by
  constructor
  · intro s d clk hb
    exact ⟨_, rfl, regLoad_loaded hb d clk, rfl, rfl, rfl, .of_mem_eq rfl, rfl, rfl, rfl⟩
  · intro op clk s
    obtain ⟨t, ht, he⟩ := aluExecute_effect op clk s
    exact ⟨t, ht, he.b⟩

/-- Settles O22: each read sets the reply alone, to the output of its register. -/
theorem aluReadsArePure : Obligations.AluReadsArePure := fun _ =>
  ⟨⟨_, rfl, rfl, ⟨rfl, rfl, rfl, rfl, rfl⟩, rfl, rfl⟩, ⟨_, rfl, rfl, ⟨rfl, rfl, rfl, rfl, rfl⟩, rfl, rfl⟩,
    ⟨_, rfl, rfl, ⟨rfl, rfl, rfl, rfl, rfl⟩, rfl, rfl⟩⟩

/-! ### The computing opcodes -/

section Compute

variable (s : State)

/-- R74: AND latches the conjunction of the operands' outputs. -/
theorem exec_and : exec .and s = .next (latchResult (regOutput s.a &&& regOutput s.b) s) := by
  rw [← and4_eq]
  rfl

/-- R75: OR latches the disjunction. -/
theorem exec_or : exec .or s = .next (latchResult (regOutput s.a ||| regOutput s.b) s) := by
  rw [← or4_eq]
  rfl

/-- R76: XOR latches the exclusive or. -/
theorem exec_xor : exec .xor s = .next (latchResult (regOutput s.a ^^^ regOutput s.b) s) := by
  rw [← xor4_eq]
  rfl

/-- R77: ADD latches the sum of the bit vectors, which drops the carry. -/
theorem exec_add : exec .add s = .next (latchResult (regOutput s.a + regOutput s.b) s) := by
  rw [← add4_fst]
  rfl

end Compute

/-- The latch offers its data to R and touches nothing else. -/
theorem latchResult_loaded_onlyR {s : State} (h : s.r.Coherent) (d : Nibble) :
    Loaded s.r (latchResult d s).r d s.execClk ∧ OnlyR s (latchResult d s) :=
  ⟨regLoad_loaded h d s.execClk, rfl, rfl, rfl, .of_mem_eq rfl, rfl, rfl, rfl⟩

/-- Settles O23: AND is the latch of the conjunction. -/
theorem andLatchesConjunction : Obligations.AndLatchesConjunction := fun s h =>
  ⟨_, exec_and s, latchResult_loaded_onlyR h _⟩

/-- Settles O24: OR is the latch of the disjunction. -/
theorem orLatchesDisjunction : Obligations.OrLatchesDisjunction := fun s h =>
  ⟨_, exec_or s, latchResult_loaded_onlyR h _⟩

/-- Settles O25: XOR is the latch of the exclusive or. -/
theorem xorLatchesExclusiveOr : Obligations.XorLatchesExclusiveOr := fun s h =>
  ⟨_, exec_xor s, latchResult_loaded_onlyR h _⟩

/-- Settles O26: ADD is the latch of the bit vectors' sum, whose number is the sum of the numbers modulo 16, read as
unsigned or as signed. -/
theorem addLatchesSumModulo16 : Obligations.AddLatchesSumModulo16 := fun s h =>
  ⟨_, _, exec_add s, BitVec.toNat_add _ _, BitVec.toInt_add _ _, latchResult_loaded_onlyR h _⟩

/-! ### The opcodes and the counter -/

/-- R82: the edge that STORE tests, its address and its data do not involve the counter. -/
theorem storeAction_setPc (s : State) (p : ProgramCounter) :
    storeAction (s.setPc p) = (storeAction s).setPc p := by
  have hedge : regRising (s.setPc p).r (s.setPc p).execClk = regRising s.r s.execClk := rfl
  rw [storeAction, storeAction, hedge]
  split <;> rfl

/-- Settles O30: the meanings read and set other fields; in STORE the memory action is the one to check. -/
theorem opcodesNeitherReadNorWriteCounter : Obligations.OpcodesNeitherReadNorWriteCounter := by
  intro i s p
  cases i with
  | store =>
    have hstore : holdResult (storeAction (s.setPc p)) = (holdResult (storeAction s)).setPc p := by
      rw [storeAction_setPc]
      rfl
    exact ⟨_, rfl, storeAction_pc s, congrArg Host.Outcome.next hstore⟩
  | and | or | xor | add | load => exact ⟨_, rfl, rfl, rfl⟩

/-! ### What an execution does to A -/

/-- R81: LOAD offers A the low half of the byte at the address in B; no other instruction reaches A. -/
theorem exec_a {i : Instr} {s t : State} (h : exec i s = .next t) :
    t.a = if i = .load then regLoad s.a (toBits (memRead s.mem (effectiveAddress s))) s.execClk else s.a := by
  cases i with
  | store =>
    obtain rfl := Host.Outcome.next.inj h
    exact storeAction_a s
  | and | or | xor | add | load =>
    obtain rfl := Host.Outcome.next.inj h
    rfl

/-- The same for the byte of an `AluExecute`: an unknown opcode leaves A (R83). -/
theorem aluExecute_a {op : Byte} {clk : Bool} {s t : State} (h : aluExecute op clk s = .next t) :
    t.a = if op = opLoad then regLoad s.a (toBits (memRead s.mem (effectiveAddress s))) clk else s.a := by
  rcases aluExecute_cases op clk s with ⟨i, hdec, hexec⟩ | ⟨hdec, hexec⟩
  · have hload : op = opLoad ↔ i = .load := by
      rw [← decode_eq_ok_iff.1 hdec]
      cases i <;> decide
    simp only [hload]
    exact exec_a (hexec ▸ h)
  · have hne : op ≠ opLoad := by
      rintro rfl
      exact nomatch hdec
    obtain rfl := Host.Outcome.next.inj (hexec.symm.trans h)
    rw [if_neg hne]
    rfl

/-! ### Executions without an edge at R -/

section Effect

variable {s t : State}

theorem ExecEffect.r_sampled (h : ExecEffect s t) : t.r.Sampled s.execClk := by
  obtain ⟨d, hr⟩ := h.r
  rw [hr]
  exact regLoad_sampled s.r d s.execClk

/-- R79 (a): with the clock low no part sees an edge. -/
theorem ExecEffect.invisible_of_low (h : ExecEffect s t) (hclk : s.execClk = false) :
    regOutput t.r = regOutput s.r ∧ regOutput t.a = regOutput s.a ∧ t.mem = s.mem := by
  refine ⟨?_, ?_, ?_⟩
  · obtain ⟨d, hr⟩ := h.r
    rw [hr, hclk, regOutput_regLoad_low]
  · rcases h.a with ha | ⟨d, ha⟩
    · rw [ha]
    · rw [ha, hclk, regOutput_regLoad_low]
  · rcases h.mem with hm | ⟨hhigh, _, _⟩
    · exact hm
    · exact nomatch hhigh.symm.trans hclk

/-- R79 (b), (c): where R saw clock 1 last it takes no data, and STORE, gated by the same edge, writes nothing. -/
theorem ExecEffect.keeps_of_heldHigh (h : ExecEffect s t) (hr : s.r.Sampled true) :
    regOutput t.r = regOutput s.r ∧ t.mem = s.mem := by
  constructor
  · obtain ⟨d, htr⟩ := h.r
    rw [htr, regOutput_regLoad_heldHigh hr]
  · rcases h.mem with hm | ⟨_, harmed, _⟩
    · exact hm
    · exact nomatch hr.pclk_eq.symm.trans harmed

end Effect

/-- Settles O31: no part sees an edge; R is sampled, and A is where the byte is LOAD's. -/
theorem lowClockExecutionIsInvisible : Obligations.LowClockExecutionIsInvisible := by
  intro op s
  obtain ⟨t, ht, he⟩ := aluExecute_effect op false s
  obtain ⟨hr, ha, hm⟩ := he.invisible_of_low rfl
  refine ⟨t, ht, hr, ha, he.b, he.pc, hm, he.r_sampled, ?_⟩
  have hta := aluExecute_a ht
  show if op = opLoad then t.a.Sampled false else t.a = s.a
  by_cases hop : op = opLoad
  · rw [if_pos hop] at hta ⊢
    rw [hta]
    exact regLoad_sampled s.a _ false
  · rw [if_neg hop] at hta ⊢
    exact hta

/-- Settles O32: the first execution leaves R's clock high, so the second finds no edge; nor does the first where R's
clock was high before. -/
theorem heldHighOnlyFirstExecutionLatches : Obligations.HeldHighOnlyFirstExecutionLatches := by
  intro op op' s hr _
  obtain ⟨t, ht, he⟩ := aluExecute_effect op true s
  obtain ⟨u, hu, he'⟩ := aluExecute_effect op' true t
  obtain ⟨hur, hum⟩ := he'.keeps_of_heldHigh he.r_sampled
  refine ⟨t, u, ht, hu, hur, hum, he'.r_sampled, fun hhigh => ?_⟩
  have hheld : s.r.Sampled true := fun i => (hr i).trans hhigh
  exact he.keeps_of_heldHigh hheld

end Sys2Proof.Machine

namespace Sys2Proof.Machine

/-! ### LOAD and STORE -/

/-- R81 with the address and the data as conversions of B's output and of the byte read (R55, R84). -/
theorem exec_load (s : State) : exec .load s =
    .next (holdResult (aluLoadA ((memRead s.mem ((regOutput s.b).setWidth 16)).setWidth 4) s.execClk s)) := by
  rw [← effectiveAddress_eq]
  rfl

/-- Settles O27: A is offered the byte's low half and R its own output, each by its normal load. -/
theorem loadFillsAFromMemory : Obligations.LoadFillsAFromMemory := fun s ha hr =>
  ⟨_, exec_load s, regLoad_loaded ha _ s.execClk, regLoad_loaded hr _ s.execClk, rfl, rfl, .of_mem_eq rfl,
    rfl, rfl, rfl⟩

theorem effectiveAddress_toNat (s : State) : (effectiveAddress s).toNat = (regOutput s.b).toNat := by
  rw [effectiveAddress_eq, BitVec.toNat_setWidth_of_le (by decide)]

section StoreAction

variable {s : State}

/-- R82: the byte stored is A's output as a number, where R sees the edge and the address is in range. -/
theorem memRead_storeAction_same (hwf : s.mem.wf = true) (hclk : s.execClk = true) (harmed : s.r.pclk = false)
    (hrange : (effectiveAddress s).toNat < s.mem.size) :
    (memRead (storeAction s).mem (effectiveAddress s)).toNat = (regOutput s.a).toNat := by
  rw [storeAction_mem, if_pos ⟨hclk, harmed⟩, memRead_memWrite_same hwf hrange]
  exact fromBits_toNat (regOutput s.a)

/-- R82: with an edge or without one, STORE reaches one address only. -/
theorem memRead_storeAction_of_ne (hwf : s.mem.wf = true) {x : Addr} (hx : x ≠ effectiveAddress s) :
    memRead (storeAction s).mem x = memRead s.mem x := by
  rw [storeAction_mem]
  split
  · exact memRead_memWrite_of_ne hwf hx (storeData s)
  · rfl

/-- R82, R30: no edge at R, or no location at the address, and nothing is written. -/
theorem storeAction_mem_eq_self
    (h : s.execClk = false ∨ s.r.pclk = true ∨ s.mem.size ≤ (effectiveAddress s).toNat) :
    (storeAction s).mem = s.mem := by
  rw [storeAction_mem]
  split
  · next hedge =>
    obtain ⟨hclk, harmed⟩ := hedge
    rcases h with hlow | hheld | hsize
    · exact nomatch hclk.symm.trans hlow
    · exact nomatch harmed.symm.trans hheld
    · exact memWrite_of_size_le hsize (storeData s)
  · rfl

end StoreAction

/-- R82: STORE sets the memory by its memory action, and R is offered its own output. -/
theorem exec_store_mem_r {s t : State} (h : exec .store s = .next t) :
    t.mem = (storeAction s).mem ∧ t.r = regLoad s.r (regOutput s.r) s.execClk := by
  obtain rfl := Host.Outcome.next.inj h
  exact ⟨rfl, by rw [holdResult_r, storeAction_r, storeAction_execClk]⟩

/-- Settles O28: the memory is that of the memory action; the action leaves the registers, and then R is offered its
own output. -/
theorem storeWritesAToMemory : Obligations.StoreWritesAToMemory := by
  intro s hr hwf
  obtain ⟨t, ht, he⟩ := exec_effect .store s
  obtain ⟨hmem, htr⟩ := exec_store_mem_r ht
  refine ⟨t, ht, ?stored, ?kept, he.mem_size, ?held, exec_a ht, he.b, he.pc, he.driver⟩
  case stored =>
    rintro _ rfl
    rw [hmem]
    exact ⟨effectiveAddress_toNat s, memRead_storeAction_same hwf, fun _ => memRead_storeAction_of_ne hwf⟩
  case kept =>
    rw [hmem]
    exact storeAction_mem_eq_self
  case held =>
    rw [htr]
    exact regLoad_loaded hr (regOutput s.r) s.execClk

/-! ### An unknown opcode -/

theorem aluExecute_of_six_le {op : Byte} (h : 6 ≤ op.toNat) (clk : Bool) (s : State) :
    aluExecute op clk s = .next (holdResult (s.setExecClk clk)) := by
  rw [aluExecute, decode_of_six_le h]
  rfl

/-- Settles O29: the byte decodes to no instruction, so R is offered its own output and nothing else happens. -/
theorem unknownOpcodeOnlySamplesR : Obligations.UnknownOpcodeOnlySamplesR := fun s _ clk hop hr =>
  ⟨_, aluExecute_of_six_le hop clk s, regLoad_loaded hr (regOutput s.r) clk, rfl, rfl, rfl, .of_mem_eq rfl, rfl, rfl⟩

end Sys2Proof.Machine

namespace Sys2Proof.Machine

/-! ### Lock-step operation -/

/-- R88: a lock-step tick makes every part see its clock: the counter first, R in the execute, A and B by the loads at
its end. -/
theorem lockstepTick_lockedAt (clk : Bool) (reqA reqB : Option Nibble) (s : State) :
    ∃ t, lockstepTick clk reqA reqB s = .next t ∧ LockedAt t clk := by
  obtain ⟨t, _, he, ht⟩ := lockstepTick_effect clk reqA reqB s
  have hpc : (lockstepLoads clk reqA reqB t).pc.pclk = clk := by
    rw [lockstepLoads_pc, he.pc]
    exact pcUpdate_pclk s.pc clk
  exact ⟨_, ht, hpc, regLoad_sampled t.a _ clk, regLoad_sampled t.b _ clk, he.r_sampled⟩

/-- Settles O50: a lock-step tick sets every previous clock; the other operations of a lock-step driver reach none. -/
theorem lockstepOperationKeepsLock : Obligations.LockstepOperationKeepsLock := by
  intro s c op hlock hop
  cases op with
  | lockstepTick clk reqA reqB => exact lockstepTick_lockedAt clk reqA reqB s
  | memRead | memWrite | pcSet | pcGet | pcRead | aluGetResult | aluGetRegA | aluGetRegB => exact ⟨_, rfl, hlock⟩
  | pcUpdate | aluLoadA | aluLoadB | aluExecute | tick => nomatch hop

theorem lastClock_cons (c : Bool) (op : DriverOp) (rest : List DriverOp) :
    lastClock c (op :: rest) = lastClock (lastClock c [op]) rest := by
  cases op <;> rfl

/-- The step that performs an operation of a lock-step driver keeps the lock and leaves the rest of the list. -/
theorem step_lockedAt {s : State} {c : Bool} {op : DriverOp} {rest : List DriverOp} (hscript : s.script = op :: rest)
    (hlock : LockedAt s c) (hop : keepsLockstep op = true) :
    ∃ t, step s = .next t ∧ t.script = rest ∧ LockedAt t (lastClock c [op]) := by
  have hbegin : LockedAt (beginOp rest s) c := hlock
  obtain ⟨t, ht, hlock'⟩ := lockstepOperationKeepsLock (beginOp rest s) c op hbegin hop
  obtain ⟨t', ht', hkeeps⟩ := invoke_keepsListAndCapacity op (beginOp rest s)
  obtain rfl := Host.Outcome.next.inj (ht'.symm.trans ht)
  exact ⟨t', (step_cons hscript).trans ht, hkeeps.script, hlock'⟩

/-- A run takes its first step and goes on from there. -/
theorem run_succ {s t : State} (h : step s = .next t) (k : Nat) :
    Host.Core.run core (k + 1) s = Host.Core.run core k t := by
  have hstep : core.step s = .next t := h
  simp only [Host.Core.run, hstep]

/-- Settles O51, by induction on the list of operations, from any clock the parts share: the first step hands on the
clock from which the last clock of the rest counts. -/
theorem lockstepRunKeepsLock : Obligations.LockstepRunKeepsLock := by
  intro ops
  induction ops with
  | nil =>
    intro s c hscript hlock _
    exact ⟨s, rfl, hscript, hlock⟩
  | cons op rest ih =>
    intro s c hscript hlock hops
    obtain ⟨hop, hrest⟩ := List.forall_mem_cons.1 hops
    obtain ⟨t, ht, hscript', hlock'⟩ := step_lockedAt hscript hlock hop
    rw [List.length_cons, run_succ ht, lastClock_cons]
    exact ih t _ hscript' hlock' hrest

/-! ### What a tick executes -/

section Tick

variable {s : State} {rest : List DriverOp} {clk : Bool}

/-- R86: the step of a tick executes the byte at the updated counter. -/
theorem step_tick (h : s.script = .tick clk :: rest) :
    step s = aluExecute (memRead s.mem (pcUpdate s.pc clk).value) clk (clockPc clk (beginOp rest s)) :=
  step_cons h

theorem step_tick_of_decode {i : Instr} (h : s.script = .tick clk :: rest)
    (hdec : decode (memRead s.mem (pcUpdate s.pc clk).value) = .ok i) :
    step s = exec i ((clockPc clk (beginOp rest s)).setExecClk clk) :=
  (step_tick h).trans (aluExecute_of_decode hdec clk _)

@[simp] theorem pcUpdate_value_low (p : ProgramCounter) : (pcUpdate p false).value = p.value := rfl

end Tick

/-- Settles O37: both operations run the byte's instruction, the tick after its update of the counter. -/
theorem stepRunsDecodedInstruction : Obligations.StepRunsDecodedInstruction := fun s rest clk _ =>
  ⟨step_tick_of_decode,
    fun _ hscript hdec => (step_cons hscript).trans (aluExecute_of_decode hdec clk (beginOp rest s))⟩

/-- R43: a word of eight bits that the table reads as an instruction is that instruction's byte. -/
theorem decode_of_decodeTableWord {w : Nat} {i : Instr} (h : decodeTableWord 8 w = some i) :
    decode (BitVec.ofNat 8 w) = .ok i := by
  have hw : w < 256 := by
    by_contra hw
    simp [decodeTableWord, tableByte, hw] at h
  cases hdec : decode (BitVec.ofNat 8 w) with
  | ok j => simpa [decodeTableWord, tableByte, hw, hdec] using h
  | error e => simp [decodeTableWord, tableByte, hw, hdec] at h

/-- Placing a word of eight bits is placing the byte it stands for. -/
theorem withFetchWord_eq (s : State) (w : Nat) :
    s.withFetchWord 8 w = placeInstruction (BitVec.ofNat 8 w) s := by
  have hword : BitVec.ofNat 8 (w % 2 ^ 8) = BitVec.ofNat 8 w := BitVec.eq_of_toNat_eq (by simp)
  rw [State.withFetchWord, hword]

/-- Settles O38: the tick that was put first fetches the byte that was placed where its update moves the counter. -/
theorem placedInstructionRunsNext : Obligations.PlacedInstructionRunsNext := by
  intro s w i hwf hw
  have hread (x : Addr) : memRead (placeInstruction (BitVec.ofNat 8 w) s).mem x =
      if x = (pcUpdate s.pc true).value then BitVec.ofNat 8 w else memRead s.mem x := by
    rw [placeInstruction_mem, memRead_placeByte hwf]
  have hdec : decode (memRead (placeInstruction (BitVec.ofNat 8 w) s).mem (pcUpdate s.pc true).value) = .ok i := by
    rw [hread, if_pos rfl]
    exact decode_of_decodeTableWord hw
  rw [withFetchWord_eq]
  refine ⟨_, step_tick_of_decode (placeInstruction_script s _) hdec, ?_, ?_, ?_, ?_, ?_, ?_, ?otherBytes⟩
  case otherBytes => exact fun x hx => (hread x).trans (if_neg hx)
  all_goals simp

/-- Settles O42: the update with clock 0 leaves the address, and an execution with clock 0 only arms. -/
theorem fallingTickOnlyArms : Obligations.FallingTickOnlyArms := by
  intro s rest hscript
  obtain ⟨t, ht, hr, ha, hb, hpc, hmem, hsampled, harmsA⟩ :=
    lowClockExecutionIsInvisible (memRead s.mem s.pc.value) (clockPc false (beginOp rest s))
  refine ⟨t, (step_tick hscript).trans ht, ?value, ?pclk, hsampled, hr, ha, hb, hmem, harmsA⟩
  case value => rw [hpc]; exact pcUpdate_value_low s.pc
  case pclk => rw [hpc]; exact pcUpdate_pclk s.pc false

/-- R90: set to the address before the target, an armed counter moves to the target. -/
theorem pcUpdate_pcSet_pred {p : ProgramCounter} (h : p.pclk = false) (target : Addr) :
    (pcUpdate (pcSet p (target - 1#16)) true).value = target := by
  have harmed : (pcSet p (target - 1#16)).pclk = false := (pcSet_pclk p _).trans h
  rw [pcUpdate_value_armed harmed, pcSet_value, BitVec.sub_add_cancel]

/-- Settles O44: the tick after the set executes the byte at the target, whichever kind of byte it is. -/
theorem jumpExecutesTargetNext : Obligations.JumpExecutesTargetNext := by
  intro s rest target hscript harmed
  have htarget := pcUpdate_pcSet_pred harmed target
  have hset : step s = .next ((beginOp (.tick true :: rest) s).setPc (pcSet s.pc (target - 1#16))) := step_cons hscript
  refine ⟨_, _, hset, fun i hdec => step_tick_of_decode rfl ?instruction, fun hop => ?unknown, htarget,
    rfl, rfl, rfl, rfl, rfl, rfl, rfl⟩
  case instruction =>
    rw [State.setPc_pc, htarget]
    exact hdec
  case unknown =>
    rw [step_tick rfl, State.setPc_pc, htarget]
    exact aluExecute_of_six_le hop true _

/-! ### What an execution does to R and to memory -/

/-- What the byte `op` offers R (R74 to R77): a result computed from A and B, or R's own output (R81 to R83). -/
def offeredToR (op : Byte) (s : State) : Nibble :=
  match decode op with
  | .ok .and => regOutput s.a &&& regOutput s.b
  | .ok .or => regOutput s.a ||| regOutput s.b
  | .ok .xor => regOutput s.a ^^^ regOutput s.b
  | .ok .add => regOutput s.a + regOutput s.b
  | _ => regOutput s.r

section Execute

variable {op : Byte} {clk : Bool} {i : Instr} {s t : State}

theorem exec_r_of_latch {d : Nibble} (hlatch : exec i s = .next (latchResult d s)) (h : exec i s = .next t) :
    t.r = regLoad s.r d s.execClk := by
  obtain rfl := Host.Outcome.next.inj (hlatch.symm.trans h)
  exact latchResult_r s d

/-- R73, step 3: R is loaded with what the byte offers it. -/
theorem aluExecute_r (h : aluExecute op clk s = .next t) : t.r = regLoad s.r (offeredToR op s) clk := by
  rcases aluExecute_cases op clk s with ⟨i, hdec, hexec⟩ | ⟨hdec, hexec⟩
  · rw [offeredToR, hdec]
    have hi := hexec.symm.trans h
    cases i with
    | and => exact exec_r_of_latch (exec_and _) hi
    | or => exact exec_r_of_latch (exec_or _) hi
    | xor => exact exec_r_of_latch (exec_xor _) hi
    | add => exact exec_r_of_latch (exec_add _) hi
    | load =>
      obtain rfl := Host.Outcome.next.inj hi
      rfl
    | store => exact (exec_store_mem_r hi).2
  · rw [offeredToR, hdec]
    obtain rfl := Host.Outcome.next.inj (hexec.symm.trans h)
    rfl

/-- Only STORE reaches memory. -/
theorem exec_mem (h : exec i s = .next t) : t.mem = if i = .store then (storeAction s).mem else s.mem := by
  cases i with
  | store => exact (exec_store_mem_r h).1
  | and | or | xor | add | load =>
    obtain rfl := Host.Outcome.next.inj h
    rfl

theorem aluExecute_mem (h : aluExecute op clk s = .next t) :
    t.mem = if decode op = .ok .store then (storeAction (s.setExecClk clk)).mem else s.mem := by
  rcases aluExecute_cases op clk s with ⟨i, hdec, hexec⟩ | ⟨hdec, hexec⟩
  · simp only [hdec, Except.ok.injEq]
    exact exec_mem (hexec.symm.trans h)
  · obtain rfl := Host.Outcome.next.inj (hexec.symm.trans h)
    rw [hdec]
    rfl

/-- R82 on a rising edge at R: the byte at the address in B becomes A, where it is in range. -/
theorem memRead_storeAction_rising (hwf : s.mem.wf = true) (hclk : s.execClk = true) (harmed : s.r.pclk = false)
    (x : Addr) : memRead (storeAction s).mem x =
      if x = (regOutput s.b).setWidth 16 ∧ x.toNat < s.mem.size then (regOutput s.a).setWidth 8
      else memRead s.mem x := by
  rw [storeAction_mem, if_pos ⟨hclk, harmed⟩, memRead_memWrite hwf, ← effectiveAddress_eq, ← storeData_eq]
  by_cases hx : x = effectiveAddress s
  · rw [hx]
  · rw [if_neg fun ⟨e, _⟩ => hx e, if_neg fun ⟨e, _⟩ => hx e]

end Execute

/-! ### A rising tick of an armed counter -/

section RisingTick

variable {s t : State} (h : tick true s = .next t) (hpc : s.pc.pclk = false)

include h hpc

/-- R87: it executes the byte at the next address. -/
theorem aluExecute_of_tick_rising :
    aluExecute (memRead s.mem (s.pc.value + 1#16)) true (clockPc true s) = .next t := by
  rw [← pcUpdate_value_armed hpc]
  exact h

/-- R81: A is offered the loaded nibble if that byte is LOAD, and is left alone otherwise. -/
theorem tick_rising_a : t.a = if decode (memRead s.mem (s.pc.value + 1#16)) = .ok .load
    then regLoad s.a ((memRead s.mem ((regOutput s.b).setWidth 16)).setWidth 4) true else s.a := by
  have ha := aluExecute_a (aluExecute_of_tick_rising h hpc)
  have hload (op : Byte) : decode op = .ok .load ↔ op = opLoad := decode_eq_ok_iff.trans eq_comm
  simp only [hload, ← effectiveAddress_eq]
  exact ha

theorem tick_rising_a_output (hcoherent : s.a.Coherent) :
    regOutput t.a = if decode (memRead s.mem (s.pc.value + 1#16)) = .ok .load ∧ s.a.pclk = false
      then (memRead s.mem ((regOutput s.b).setWidth 16)).setWidth 4 else regOutput s.a := by
  rw [tick_rising_a h hpc]
  split
  · next hload => simp only [regOutput_regLoad hcoherent, hload, true_and]
  · next hload => rw [if_neg fun ⟨e, _⟩ => hload e]

theorem tick_rising_a_sampled :
    if decode (memRead s.mem (s.pc.value + 1#16)) = .ok .load then t.a.Sampled true else t.a = s.a := by
  rw [tick_rising_a h hpc]
  split
  · exact regLoad_sampled s.a _ true
  · rfl

theorem tick_rising_r_output (hcoherent : s.r.Coherent) (harmed : s.r.pclk = false) :
    regOutput t.r = offeredToR (memRead s.mem (s.pc.value + 1#16)) s := by
  rw [aluExecute_r (aluExecute_of_tick_rising h hpc)]
  exact (regOutput_regLoad hcoherent _ true).trans (if_pos ⟨rfl, harmed⟩)

theorem tick_rising_memRead (hwf : s.mem.wf = true) (harmed : s.r.pclk = false) (x : Addr) :
    memRead t.mem x = if decode (memRead s.mem (s.pc.value + 1#16)) = .ok .store ∧
      x = (regOutput s.b).setWidth 16 ∧ x.toNat < s.mem.size then (regOutput s.a).setWidth 8
      else memRead s.mem x := by
  rw [aluExecute_mem (aluExecute_of_tick_rising h hpc)]
  split
  · next hstore =>
    simp only [hstore, true_and]
    exact memRead_storeAction_rising (s := (clockPc true s).setExecClk true) hwf rfl harmed x
  · next hstore => rw [if_neg fun ⟨e, _⟩ => hstore e, clockPc_mem]

end RisingTick

/-- Settles O41: the tick's execution, part by part, in the state that `beginOp` leaves. -/
theorem risingTickMeaning : Obligations.RisingTickMeaning := by
  intro s rest hinv hscript hpc hr
  obtain ⟨hcoherentA, _, hcoherentR, hwf⟩ := hinv
  obtain ⟨t, ht, he⟩ := tick_effect true (beginOp rest s)
  have htpc : t.pc = pcUpdate s.pc true := he.pc
  refine ⟨t, (step_cons hscript).trans ht, ?value, ?pclk, he.r_sampled, he.b, ?r, ?a, ?aCells, ?memory⟩
  case value => rw [htpc, pcUpdate_value_toNat, if_pos ⟨rfl, hpc⟩]
  case pclk => rw [htpc, pcUpdate_pclk]
  case r => exact tick_rising_r_output (s := beginOp rest s) ht hpc hcoherentR hr
  case a => exact tick_rising_a_output (s := beginOp rest s) ht hpc hcoherentA
  case aCells => exact tick_rising_a_sampled (s := beginOp rest s) ht hpc
  case memory => exact tick_rising_memRead (s := beginOp rest s) ht hpc hwf hr

@[simp] theorem lockstepLoads_a (clk : Bool) (reqA reqB : Option Nibble) (s : State) :
    (lockstepLoads clk reqA reqB s).a = regLoad s.a (reqA.getD (regOutput s.a)) clk := rfl

/-- R88 after a rising tick: A keeps the nibble of a LOAD, which has used up its edge, and takes its request
otherwise. -/
theorem lockstepLoads_rising_a {s t : State} (h : tick true s = .next t) (hpc : s.pc.pclk = false)
    (harmed : s.a.Sampled false) (reqA reqB : Option Nibble) :
    regOutput (lockstepLoads true reqA reqB t).a = if decode (memRead s.mem (s.pc.value + 1#16)) = .ok .load
      then (memRead s.mem ((regOutput s.b).setWidth 16)).setWidth 4 else reqA.getD (regOutput s.a) := by
  rw [lockstepLoads_a, tick_rising_a h hpc]
  split
  · rw [regOutput_regLoad_heldHigh (regLoad_sampled s.a _ true), regOutput_regLoad_armed harmed]
  · exact regOutput_regLoad_armed harmed _

/-- Settles O46: the loads come after the execute and touch A and B alone; B is still armed. -/
theorem lockstepTickLoadsAfterExecute : Obligations.LockstepTickLoadsAfterExecute := by
  intro s rest reqA reqB hlock hscript
  obtain ⟨hpc, harmedA, harmedB, _⟩ := hlock
  obtain ⟨t, ht, he, hstep⟩ := lockstepTick_effect true reqA reqB (beginOp rest s)
  have htb : t.b = s.b := he.b
  refine ⟨t, _, ht, (step_cons hscript).trans hstep, rfl, rfl, rfl, ?requestB,
    lockstepLoads_rising_a ht hpc harmedA reqA reqB⟩
  case requestB => rw [lockstepLoads_b, htb, regOutput_regLoad_armed harmedB]

end Sys2Proof.Machine

namespace Sys2Proof.Machine

/-! ### The counter over a clock sequence -/

/-- R65 as a sum: one update adds the edge it sees, 0 or 1, modulo 65536. -/
theorem pcUpdate_value_toNat_add_edge (p : ProgramCounter) (clk : Bool) :
    (pcUpdate p clk).value.toNat =
      (p.value.toNat + if p.pclk = false ∧ clk = true then 1 else 0) % 65536 := by
  simp only [pcUpdate_value_toNat, and_comm (a := clk = true)]
  split
  · rfl
  · exact (Nat.mod_eq_of_lt p.value.isLt).symm

/-- Settles O18, by induction on the clocks: the first update adds its own edge and records the clock from which the
rest count theirs. -/
theorem pcCountsRisingEdgesOfAnySequence : Obligations.PcCountsRisingEdgesOfAnySequence := by
  intro p clks
  induction clks generalizing p with
  | nil => exact (Nat.mod_eq_of_lt p.value.isLt).symm
  | cons clk rest ih =>
    rw [List.foldl_cons, ih, pcUpdate_pclk, pcUpdate_value_toNat_add_edge, Nat.mod_add_mod, Nat.add_assoc,
      risingEdges]

/-! ### No operation stops -/

/-- Settles O39: an operation and a step each answer a state, of which earlier lemmas say more; `Fault` has no
constructor. -/
theorem noOperationStops : Obligations.NoOperationStops := by
  refine ⟨fun op s => ?operation, fun s => ?step, ⟨nofun⟩⟩
  case operation =>
    obtain ⟨t, ht, _⟩ := invoke_keepsListAndCapacity op s
    exact ⟨t, ht⟩
  case step =>
    obtain ⟨t, ht, _⟩ := step_script_size s
    exact ⟨t, ht⟩

end Sys2Proof.Machine

namespace Sys2Proof.Machine

/-! ### A low clock arms a part -/

/-- R108: a register all of whose cells saw clock 0 last is armed. -/
theorem Reg.Sampled.armed {n : Nat} [NeZero n] {x : Reg n} (h : x.Sampled false) : x.armed = true := by
  rw [Reg.armed, h.pclk_eq, Bool.not_false]

/-- R77 on a rising edge at R: an armed R takes the sum of the operands. -/
theorem aluExecute_add_armed {s : State} (h : s.r.Sampled false) :
    ∃ t, aluExecute 0x03#8 true s = .next t ∧ regOutput t.r = regOutput s.a + regOutput s.b :=
  ⟨_, (aluExecute_of_decode (decode_encode .add) true s).trans (exec_add _), regOutput_regLoad_armed h _⟩

/-- Settles O33: every part records the low clock, an execution that of R, and an armed part takes what it is offered;
the low execution has left the outputs that ADD then sums. -/
theorem lowClockArmsEveryPart : Obligations.LowClockArmsEveryPart := by
  intro s any d op
  have hA : (regLoad s.a any false).Sampled false := regLoad_sampled s.a any false
  have hB : (regLoad s.b any false).Sampled false := regLoad_sampled s.b any false
  refine ⟨⟨_, _, rfl, hA.armed, rfl, regOutput_regLoad_armed hA d⟩,
    ⟨_, _, rfl, hB.armed, rfl, regOutput_regLoad_armed hB d⟩, ?execution, ?counter⟩
  case execution =>
    obtain ⟨t, ht, _, ha, hb, _, _, hR, _⟩ := lowClockExecutionIsInvisible op s
    obtain ⟨u, hu, hsum⟩ := aluExecute_add_armed hR
    exact ⟨t, u, ht, hR.armed, hu, by rw [hsum, ha, hb]⟩
  case counter =>
    exact ⟨_, _, rfl, pcUpdate_pclk s.pc false, rfl, pcUpdate_value_armed (pcUpdate_pclk s.pc false)⟩

/-! ### The lost LOAD -/

section LostLoad

variable {s : State} {rest : List DriverOp}

/-- R86, R81: a rising tick on a LOAD moves an armed counter to it and offers A some nibble under the high clock. -/
theorem step_tick_rising_load (hscript : s.script = .tick true :: rest) (hpc : s.pc.pclk = false)
    (hload : decode (memRead s.mem (s.pc.value + 1#16)) = .ok .load) :
    ∃ t d, step s = .next t ∧ t.script = rest ∧ t.pc.value = s.pc.value + 1#16 ∧ t.mem = s.mem ∧
      t.a = regLoad s.a d true := by
  have hmoved : (pcUpdate s.pc true).value = s.pc.value + 1#16 := pcUpdate_value_armed hpc
  have hfetched : decode (memRead s.mem (pcUpdate s.pc true).value) = .ok .load := by rwa [hmoved]
  exact ⟨_, _, (step_tick_of_decode hscript hfetched).trans (exec_load _), rfl, hmoved, rfl, rfl⟩

/-- R87: a falling tick, which leaves the counter where it is, samples A if the byte there is LOAD's. -/
theorem step_tick_falling_load (hscript : s.script = .tick false :: rest)
    (hload : decode (memRead s.mem s.pc.value) = .ok .load) :
    ∃ t, step s = .next t ∧ regOutput t.a = regOutput s.a ∧ t.a.Sampled false := by
  obtain ⟨t, ht, _, _, _, _, ha, _, _, harms⟩ := fallingTickOnlyArms s rest hscript
  have hbyte : memRead s.mem s.pc.value = 0x04#8 := (decode_eq_ok_iff.1 hload).symm
  exact ⟨t, ht, ha, by rwa [if_pos hbyte] at harms⟩

end LostLoad

/-- Settles O45: A sees no edge in the rising tick, after which the counter stands at the LOAD; the falling tick
fetches that LOAD again, and by it A sees the low clock. -/
theorem loadIsLostWhenANotArmed : Obligations.LoadIsLostWhenANotArmed := by
  intro s rest hscript hpc hheld hload
  obtain ⟨t, d, ht, hscript', hvalue, hmem, ha⟩ := step_tick_rising_load hscript hpc hload
  have hlost : regOutput t.a = regOutput s.a := by rw [ha, regOutput_regLoad_heldHigh hheld]
  have hagain : decode (memRead t.mem t.pc.value) = .ok .load := by rwa [hmem, hvalue]
  obtain ⟨u, hu, hkept, harmed⟩ := step_tick_falling_load hscript' hagain
  exact ⟨t, u, ht, hlost, hu, hkept.trans hlost, harmed⟩

end Sys2Proof.Machine
